-- ==== Sys2Proof/Word.lean ====
section
/-! DEFINITION. The widths of the core's data: bytes, 32-bit words, 128-bit identifiers and data buses (00_scope.md R6, R7). -/

namespace Sys2Proof

/-- A message byte, an identifier byte, a text character. -/
abbrev Byte := BitVec 8

/-- A SHA-1 word, a command word (`CMD_W` of R7), a code point (R186). -/
abbrev Word := BitVec 32

/-- An identifier (R9), and a value of the `WDATA` and `RDATA` buses (`DATA_W` of R7). Byte 0 of an identifier is bits 127:120. -/
abbrev Ident := BitVec 128

/-- The number of a UUID register, `U0` to `U3` (R28): `NUM_UREG` of R7 is 4. -/
abbrev UReg := Fin 4

end Sys2Proof
end

