-- ==== Sys2Proof/Syntax.lean ====
section
/-! DEFINITION. The 29 commands of 30_encoding.md R73, one constructor per row of opcode_table.json. -/

namespace Sys2Proof

/-- A command with the operands its row of R73 lists under "uses". `IDX` is the unsigned 8-bit number of R72, as it stands in the
word; its range is checked by `Instr.wf`. The data operand is on the write-data bus (R72), not in the command word. -/
inductive Instr
  /-- CORE.RESET, R240. -/
  | coreReset
  /-- SHA.INIT, R101. -/
  | shaInit
  /-- SHA.APPEND, R102. -/
  | shaAppend
  /-- SHA.FINISH, R103. -/
  | shaFinish
  /-- SHA.RDW, R112. -/
  | shaRdw (idx : Byte)
  /-- SHA.RDB, R113. -/
  | shaRdb (idx : Byte)
  /-- SHA.RDHEX, R114. -/
  | shaRdhex (idx : Byte)
  /-- SHA.STAT, R115. -/
  | shaStat
  /-- U.NIL, R141. -/
  | uNil (rd : UReg)
  /-- U.MOV, R142. -/
  | uMov (rd rs : UReg)
  /-- U.WR128, R143. -/
  | uWr128 (rd : UReg)
  /-- U.RD128, R144. -/
  | uRd128 (rs : UReg)
  /-- U.WRB, R145. -/
  | uWrb (rd : UReg) (idx : Byte)
  /-- U.RDB, R146. -/
  | uRdb (rs : UReg) (idx : Byte)
  /-- U.WRF, R148. -/
  | uWrf (rd : UReg) (idx : Byte)
  /-- U.RDF, R149. -/
  | uRdf (rs : UReg) (idx : Byte)
  /-- U.VARIANT, R150. -/
  | uVariant (rs : UReg)
  /-- U.VERSION, R151. -/
  | uVersion (rs : UReg)
  /-- U.LDNS, R152. -/
  | uLdns (rd : UReg) (idx : Byte)
  /-- U.EQ, R215. -/
  | uEq (rs rt : UReg)
  /-- U.CMP, R216. -/
  | uCmp (rs rt : UReg)
  /-- U.FMTC, R218. -/
  | uFmtc (rs : UReg) (idx : Byte)
  /-- U.GEN4, R171. -/
  | uGen4 (rd : UReg)
  /-- N5.BEGIN, R172. -/
  | n5Begin (rs : UReg)
  /-- N5.END, R173. -/
  | n5End (rd : UReg)
  /-- P.START, R189. -/
  | pStart
  /-- P.CHAR, R190. -/
  | pChar
  /-- P.END, R195. -/
  | pEnd (rd : UReg)
  /-- P.STAT, R196. -/
  | pStat
  deriving DecidableEq, Repr

end Sys2Proof
end

