-- ==== Sys2Proof/WellFormed.lean ====
section
/-! DEFINITION. The index ranges of 30_encoding.md R73 and R75: the one check an instruction term has beside its shape. -/

namespace Sys2Proof

/-- The index of a command that uses `IDX`, with the last index of its range in R73 (each range starts at 0). -/
def Instr.index : Instr → Option (Byte × Nat)
  | .shaRdw idx => some (idx, 4)
  | .shaRdb idx => some (idx, 19)
  | .shaRdhex idx => some (idx, 39)
  | .uWrb _ idx => some (idx, 15)
  | .uRdb _ idx => some (idx, 15)
  | .uWrf _ idx => some (idx, 5)
  | .uRdf _ idx => some (idx, 5)
  | .uLdns _ idx => some (idx, 3)
  | .uFmtc _ idx => some (idx, 35)
  | .coreReset | .shaInit | .shaAppend | .shaFinish | .shaStat => none
  | .uNil _ | .uMov _ _ | .uWr128 _ | .uRd128 _ | .uVariant _ | .uVersion _ => none
  | .uEq _ _ | .uCmp _ _ | .uGen4 _ | .n5Begin _ | .n5End _ => none
  | .pStart | .pChar | .pEnd _ | .pStat => none

/-- R75: a command that uses `IDX` has it inside its row's range. -/
def Instr.wf (i : Instr) : Bool :=
  match i.index with
  | some (idx, last) => decide (idx.toNat ≤ last)
  | none => true

end Sys2Proof
end

