-- ==== Sys2Proof/Decode.lean ====
section
/-! DEFINITION. The decoder of 30_encoding.md R77, total on all 2^32 command words, and after it the encoder of R71. -/

namespace Sys2Proof

/-- Why a word spells no command: R76, R74, R75. -/
inductive DecodeError
  | unassignedOpcode
  | mustBeZero
  | indexOutOfRange
  deriving DecidableEq, Repr

/-- What the decoder answers: a command, or the reason there is none. -/
inductive Decoded
  | instr (i : Instr)
  | illegal (e : DecodeError)
  deriving DecidableEq, Repr

/-! ### The fields of format C (R71) -/

/-- `OP`, bits 31:24. -/
def opField (w : Word) : Byte := w.extractLsb' 24 8
/-- `RD`, bits 23:22. -/
def rdField (w : Word) : UReg := (w.extractLsb' 22 2).toFin
/-- `RS`, bits 21:20. -/
def rsField (w : Word) : UReg := (w.extractLsb' 20 2).toFin
/-- `RT`, bits 19:18. -/
def rtField (w : Word) : UReg := (w.extractLsb' 18 2).toFin
/-- `IDX`, bits 7:0. -/
def idxField (w : Word) : Byte := w.extractLsb' 0 8

/-- A row of R73: match, mask, the last index of its range where it has one, and the command with its operands taken from the
fields `RD`, `RS`, `RT`, `IDX`. -/
structure Row where
  mnemonic : String
  pat : Word
  mask : Word
  idxLast : Option Nat
  build : UReg → UReg → UReg → Byte → Instr

/-- The rows of R73 for the opcodes 0x0F and 0x10 to 0x16. -/
def rowsSha : List Row :=
  [ ⟨"CORE.RESET", 0x0F000000#32, 0xFFFFFFFF#32, none, fun _ _ _ _ => .coreReset⟩,
    ⟨"SHA.INIT", 0x10000000#32, 0xFFFFFFFF#32, none, fun _ _ _ _ => .shaInit⟩,
    ⟨"SHA.APPEND", 0x11000000#32, 0xFFFFFFFF#32, none, fun _ _ _ _ => .shaAppend⟩,
    ⟨"SHA.FINISH", 0x12000000#32, 0xFFFFFFFF#32, none, fun _ _ _ _ => .shaFinish⟩,
    ⟨"SHA.RDW", 0x13000000#32, 0xFFFFFF00#32, some 4, fun _ _ _ idx => .shaRdw idx⟩,
    ⟨"SHA.RDB", 0x14000000#32, 0xFFFFFF00#32, some 19, fun _ _ _ idx => .shaRdb idx⟩,
    ⟨"SHA.RDHEX", 0x15000000#32, 0xFFFFFF00#32, some 39, fun _ _ _ idx => .shaRdhex idx⟩,
    ⟨"SHA.STAT", 0x16000000#32, 0xFFFFFFFF#32, none, fun _ _ _ _ => .shaStat⟩ ]

/-- The rows of R73 for the opcodes 0x20 to 0x2E. -/
def rowsLayout : List Row :=
  [ ⟨"U.NIL", 0x20000000#32, 0xFF3FFFFF#32, none, fun rd _ _ _ => .uNil rd⟩,
    ⟨"U.MOV", 0x21000000#32, 0xFF0FFFFF#32, none, fun rd rs _ _ => .uMov rd rs⟩,
    ⟨"U.WR128", 0x22000000#32, 0xFF3FFFFF#32, none, fun rd _ _ _ => .uWr128 rd⟩,
    ⟨"U.RD128", 0x23000000#32, 0xFFCFFFFF#32, none, fun _ rs _ _ => .uRd128 rs⟩,
    ⟨"U.WRB", 0x24000000#32, 0xFF3FFF00#32, some 15, fun rd _ _ idx => .uWrb rd idx⟩,
    ⟨"U.RDB", 0x25000000#32, 0xFFCFFF00#32, some 15, fun _ rs _ idx => .uRdb rs idx⟩,
    ⟨"U.WRF", 0x26000000#32, 0xFF3FFF00#32, some 5, fun rd _ _ idx => .uWrf rd idx⟩,
    ⟨"U.RDF", 0x27000000#32, 0xFFCFFF00#32, some 5, fun _ rs _ idx => .uRdf rs idx⟩,
    ⟨"U.VARIANT", 0x28000000#32, 0xFFCFFFFF#32, none, fun _ rs _ _ => .uVariant rs⟩,
    ⟨"U.VERSION", 0x29000000#32, 0xFFCFFFFF#32, none, fun _ rs _ _ => .uVersion rs⟩,
    ⟨"U.LDNS", 0x2A000000#32, 0xFF3FFF00#32, some 3, fun rd _ _ idx => .uLdns rd idx⟩,
    ⟨"U.EQ", 0x2C000000#32, 0xFFC3FFFF#32, none, fun _ rs rt _ => .uEq rs rt⟩,
    ⟨"U.CMP", 0x2D000000#32, 0xFFC3FFFF#32, none, fun _ rs rt _ => .uCmp rs rt⟩,
    ⟨"U.FMTC", 0x2E000000#32, 0xFFCFFF00#32, some 35, fun _ rs _ idx => .uFmtc rs idx⟩ ]

/-- The rows of R73 for the opcodes 0x30 to 0x32 and 0x40 to 0x43. -/
def rowsGenParse : List Row :=
  [ ⟨"U.GEN4", 0x30000000#32, 0xFF3FFFFF#32, none, fun rd _ _ _ => .uGen4 rd⟩,
    ⟨"N5.BEGIN", 0x31000000#32, 0xFFCFFFFF#32, none, fun _ rs _ _ => .n5Begin rs⟩,
    ⟨"N5.END", 0x32000000#32, 0xFF3FFFFF#32, none, fun rd _ _ _ => .n5End rd⟩,
    ⟨"P.START", 0x40000000#32, 0xFFFFFFFF#32, none, fun _ _ _ _ => .pStart⟩,
    ⟨"P.CHAR", 0x41000000#32, 0xFFFFFFFF#32, none, fun _ _ _ _ => .pChar⟩,
    ⟨"P.END", 0x42000000#32, 0xFF3FFFFF#32, none, fun rd _ _ _ => .pEnd rd⟩,
    ⟨"P.STAT", 0x43000000#32, 0xFFFFFFFF#32, none, fun _ _ _ _ => .pStat⟩ ]

/-- The 29 rows of R73. -/
def rows : List Row := rowsSha ++ (rowsLayout ++ rowsGenParse)

/-- Step (1) of R77: the row of an opcode. -/
def rowOf (op : Byte) : Option Row := rows.find? fun r => opField r.pat == op

/-- Step (3) of R77: `IDX` inside the row's range, where it has one. -/
def Row.indexOk (r : Row) (idx : Byte) : Bool :=
  match r.idxLast with
  | some last => decide (idx.toNat ≤ last)
  | none => true

/-- The decoding procedure of R77: opcode, then must-be-zero, then index range, then the row's command. -/
def decode (w : Word) : Decoded :=
  match rowOf (opField w) with
  | none => .illegal .unassignedOpcode
  | some r =>
    if w &&& r.mask ≠ r.pat then .illegal .mustBeZero
    else if !r.indexOk (idxField w) then .illegal .indexOutOfRange
    else .instr (r.build (rdField w) (rsField w) (rtField w) (idxField w))

/-- The instruction the decoder reads from the `nbits` low bits of `w`, bit 0 of the command word first. A command word is not
stored anywhere (20_memory.md R50), so no byte order enters; bits above the 32 of the command word would be those of the write
data (`State.withFetchWord`), which decoding does not look at. -/
def decodeTableWord (nbits w : Nat) : Option Instr :=
  match decode (BitVec.ofNat 32 (w % 2 ^ nbits)) with
  | .instr i => some i
  | .illegal _ => none

/-! ### The encoder -/

/-- `CMD = (OP << 24) | (RD << 22) | (RS << 20) | (RT << 18) | IDX` (R71). -/
def commandWord (op : Byte) (rd rs rt : UReg) (idx : Byte) : Word :=
  (op.setWidth 32 <<< 24) ||| (BitVec.ofNat 32 rd.val <<< 22) ||| (BitVec.ofNat 32 rs.val <<< 20) |||
    (BitVec.ofNat 32 rt.val <<< 18) ||| idx.setWidth 32

/-- The opcode of a command (R73, column OP). -/
def Instr.opcode : Instr → Byte
  | .coreReset => 0x0F#8
  | .shaInit => 0x10#8
  | .shaAppend => 0x11#8
  | .shaFinish => 0x12#8
  | .shaRdw _ => 0x13#8
  | .shaRdb _ => 0x14#8
  | .shaRdhex _ => 0x15#8
  | .shaStat => 0x16#8
  | .uNil _ => 0x20#8
  | .uMov _ _ => 0x21#8
  | .uWr128 _ => 0x22#8
  | .uRd128 _ => 0x23#8
  | .uWrb _ _ => 0x24#8
  | .uRdb _ _ => 0x25#8
  | .uWrf _ _ => 0x26#8
  | .uRdf _ _ => 0x27#8
  | .uVariant _ => 0x28#8
  | .uVersion _ => 0x29#8
  | .uLdns _ _ => 0x2A#8
  | .uEq _ _ => 0x2C#8
  | .uCmp _ _ => 0x2D#8
  | .uFmtc _ _ => 0x2E#8
  | .uGen4 _ => 0x30#8
  | .n5Begin _ => 0x31#8
  | .n5End _ => 0x32#8
  | .pStart => 0x40#8
  | .pChar => 0x41#8
  | .pEnd _ => 0x42#8
  | .pStat => 0x43#8

/-- The command word of a command: the fields it uses in their places (R71), every other field zero (R74). -/
def encode (i : Instr) : Word :=
  match i with
  | .shaRdw idx | .shaRdb idx | .shaRdhex idx => commandWord i.opcode 0 0 0 idx
  | .uNil rd | .uWr128 rd | .uGen4 rd | .n5End rd | .pEnd rd => commandWord i.opcode rd 0 0 0
  | .uMov rd rs => commandWord i.opcode rd rs 0 0
  | .uRd128 rs | .uVariant rs | .uVersion rs | .n5Begin rs => commandWord i.opcode 0 rs 0 0
  | .uWrb rd idx | .uWrf rd idx | .uLdns rd idx => commandWord i.opcode rd 0 0 idx
  | .uRdb rs idx | .uRdf rs idx | .uFmtc rs idx => commandWord i.opcode 0 rs 0 idx
  | .uEq rs rt | .uCmp rs rt => commandWord i.opcode 0 rs rt 0
  | .coreReset | .shaInit | .shaAppend | .shaFinish | .shaStat => commandWord i.opcode 0 0 0 0
  | .pStart | .pChar | .pStat => commandWord i.opcode 0 0 0 0

end Sys2Proof
end

