-- ==== Sys2Proof/Config.lean ====
section
/-! DEFINITION. What 00_scope.md R7 leaves open: the two parameters of a core, and the free value of the one register the spec leaves unspecified. -/

namespace Sys2Proof

/-- The case of the hex digits the formatter emits (`FMT_CASE`, R7, R218). -/
inductive HexCase
  | lower
  | upper
  deriving DecidableEq, Repr

/-- The parameters of R7 that are fixed for the life of a core (R38). They are plain data in `State`, and no step writes them
(DESIGN CHOICE, log 4): a statement about every state is one about every instance. `ws` lists the code points that are
whitespace beside U+0020; the predicate `isWs` of Machine/Operands.lean keeps the constraints of R188 whatever the list is. -/
structure Config where
  ws : List Word
  fmtCase : HexCase
  deriving DecidableEq, Repr

/-- A byte that nothing constrains: what `BUF` holds after the reset input and after CORE.RESET, which R39 leaves unspecified.
DESIGN CHOICE, log 6: draw `k` fills byte `i` of `BUF` with `Config.freeByte (64 * k + i)`. -/
opaque Config.freeByte : Nat → Byte

end Sys2Proof
end

