-- ==== Sys2Proof/Machine/Constants.lean ====
section
/-! DEFINITION. The constants of the core: SHA-1 initial value and additive constants, the namespace ROM, the default parameters. -/

namespace Sys2Proof.Machine

/-- The initial value of the accumulators (40_sha1.md R106, which the spec takes from general knowledge, D28). -/
def iv : Vector Word 5 := #v[0x67452301#32, 0xEFCDAB89#32, 0x98BADCFE#32, 0x10325476#32, 0xC3D2E1F0#32]

/-- The additive constant `K(t)` of round `t` (R107, D28). -/
def roundConstant (t : Nat) : Word :=
  if t ≤ 19 then 0x5A827999#32
  else if t ≤ 39 then 0x6ED9EBA1#32
  else if t ≤ 59 then 0x8F1BBCDC#32
  else 0xCA62C1D6#32

/-- The namespace ROM `NS[0..3]`: DNS, URL, ISO-OID, X.500 (10_state.md R30, D17). -/
def namespaceRom : Vector Ident 4 :=
  #v[0x6BA7B8109DAD11D180B400C04FD430C8#128, 0x6BA7B8119DAD11D180B400C04FD430C8#128,
     0x6BA7B8129DAD11D180B400C04FD430C8#128, 0x6BA7B8149DAD11D180B400C04FD430C8#128]

/-- The default instance of the parameters of 00_scope.md R7: TAB, LF, VT, FF, CR beside U+0020 (R188), lower case (R218). -/
def defaultConfig : Config :=
  { ws := [0x09#32, 0x0A#32, 0x0B#32, 0x0C#32, 0x0D#32], fmtCase := .lower }

end Sys2Proof.Machine
end

