-- ==== Sys2Proof/Machine/State.lean ====
section
/-! DEFINITION. The state of the core: 10_state.md R20, the parameters of 00_scope.md R7, and the host's side of the command channel. -/

namespace Sys2Proof.Machine

/-- The SHA-1 unit (10_state.md R21 to R26). -/
structure Sha1Unit where
  /-- `H[0..4]`, R21. -/
  h : Vector Word 5
  /-- `BUF[0..63]`, R22. -/
  buf : Vector Byte 64
  /-- `NBLK`, R23. -/
  nblk : BitVec 64
  /-- `NBUF`, R24. -/
  nbuf : BitVec 6
  /-- `FIN`, R25. -/
  fin : Bool
  deriving DecidableEq, Repr

/-- The values of `PST` (R31). -/
inductive ParseState
  | initial
  | parsing
  | finished
  | error
  deriving DecidableEq, Repr

/-- The parser (R31 to R34). -/
structure ParserUnit where
  /-- `PST`, R31. -/
  pst : ParseState
  /-- `PDIG`, R32. -/
  pdig : BitVec 6
  /-- `PBO`, R33. -/
  pbo : Bool
  /-- `PBC`, R33. -/
  pbc : Bool
  /-- `PBUF[0..15]`, R34. -/
  pbuf : Vector Byte 16
  deriving DecidableEq, Repr

/-- The status names of 60_exceptions.md R231. Codes 3 to 15 are never produced, so they have no name. -/
inductive Status
  | ok
  | illegalCmd
  | notFinished
  deriving DecidableEq, Repr

/-- A response `(STATUS, RDATA)` (00_scope.md R10). -/
structure Response where
  status : Status
  rdata : Ident
  deriving DecidableEq, Repr

/-- What the host can do to the core (00_scope.md R13): present a command word with its write data (30_encoding.md R70), or
assert reset (70_reset_and_hazards.md R255). Reading a response changes nothing and is no action. -/
inductive HostAction
  | command (word : Word) (wdata : Ident)
  | reset
  deriving DecidableEq, Repr

/-- The machine. `sha`, `u` and `parser` are the complete architectural state of R20; the other fields are the model's own
(INVENTORY.md, State; log 1 to 6). -/
structure State where
  /-- The SHA-1 unit. -/
  sha : Sha1Unit
  /-- `U[0..3]`, R28. -/
  u : Vector Ident 4
  /-- The parser. -/
  parser : ParserUnit
  /-- The parameters `IsWs` and `FMT_CASE` of R7; no step writes them (log 4). -/
  cfg : Config
  /-- The host's coming actions, oldest first (DESIGN CHOICE, log 1). -/
  inbox : List HostAction
  /-- The write-data bus `WDATA` of the command being executed (DESIGN CHOICE, log 2). -/
  wdata : Ident
  /-- The responses given so far, newest first (DESIGN CHOICE, log 3). -/
  out : List Response
  /-- How many times the free contents of `BUF` were drawn (DESIGN CHOICE, log 6). -/
  draws : Nat
  deriving DecidableEq, Repr

/-- Why the machine stops. There is no such reason: every command ends with a response and the core has no stuck state (60_exceptions.md
R231, 70_reset_and_hazards.md R264). The spec's two faults, IllegalCmd and NotFinished, are responses after which the core goes on
(R232, R233), so they are next states (DEDUCED, log 7). Safe: nothing is stopped that the core would execute. -/
inductive Fault
  deriving DecidableEq, Repr

/-- Why the model gives no meaning. -/
inductive Refusal
  /-- Raised by an arm of `exec` whose instruction has no meaning yet; no arm of this model does. Safe: the model stops. -/
  | notModelled (mnemonic : String)
  deriving DecidableEq, Repr

/-- The machine right after reset (10_state.md R39). `buf` is unspecified there: 0 is a DESIGN CHOICE (log 5). The parameters are the
spec's default instance (R7, log 4). Nothing is pending, nothing was answered, the bus and the draw counter are 0 (log 1, 2, 3, 6). -/
def State.reset : State :=
  { sha := { h := iv, buf := Vector.replicate 64 0, nblk := 0, nbuf := 0, fin := false }
    u := Vector.replicate 4 0
    parser := { pst := .initial, pdig := 0, pbo := false, pbc := false, pbuf := Vector.replicate 16 0 }
    cfg := defaultConfig
    inbox := []
    wdata := 0
    out := []
    draws := 0 }

end Sys2Proof.Machine
end

