-- ==== Sys2Proof/Machine/Operands.lean ====
section
/-! DEFINITION. Every operand form: the data operands of 30_encoding.md R72, the slices, bytes and fields of an identifier, the views
of the digest and of the canonical text, the character classes of the parser. -/

namespace Sys2Proof.Machine

/-! ### Data operands (30_encoding.md R72, 20_memory.md R58): the low bits of `WDATA`, the rest ignored -/

/-- `WDATA[7:0]`: SHA.APPEND, U.WRB. -/
def State.dataByte (s : State) : Byte := s.wdata.setWidth 8

/-- `WDATA[31:0]`: P.CHAR. -/
def State.codePoint (s : State) : Word := s.wdata.setWidth 32

/-! ### Slices of an identifier (00_scope.md R8, R9) -/

/-- The value with its `w` low bits set. -/
def lowMask (w : Nat) : Ident := BitVec.allOnes 128 >>> (128 - w)

/-- `u[lo+w-1 : lo]`, zero-extended to 128 bits. -/
def slice (u : Ident) (lo w : Nat) : Ident := (u >>> lo) &&& lowMask w

/-- `u` with `u[lo+w-1 : lo]` replaced by `v[w-1:0]`, its other bits as they were. -/
def setSlice (u : Ident) (lo w : Nat) (v : Ident) : Ident :=
  (u &&& ~~~(lowMask w <<< lo)) ||| ((v &&& lowMask w) <<< lo)

/-- The lowest bit of byte `i` of an identifier, `120 - 8i` (R9). -/
def byteLo (i : Nat) : Nat := 120 - 8 * i

/-- `byte(u, i)` (R9). -/
def byteOf (u : Ident) (i : Nat) : Byte := (slice u (byteLo i) 8).setWidth 8

/-- `byte(u, i) <- b` (00_scope.md R10, 41_uuid_layout.md R145). -/
def setByte (u : Ident) (i : Nat) (b : Byte) : Ident := setSlice u (byteLo i) 8 (b.setWidth 128)

/-- Sixteen bytes as an identifier, byte 0 most significant (R9). -/
def identOfBytes (bs : Vector Byte 16) : Ident :=
  bs.toList.foldl (fun u b => (u <<< 8) ||| b.setWidth 128) 0

/-- The six fields of an identifier (41_uuid_layout.md R147). -/
inductive Field
  | timeLow
  | timeMid
  | timeHighAndVersion
  | clockSeqHiAndReserved
  | clockSeqLow
  | node
  deriving DecidableEq, Repr

/-- The field of a selector FSEL (R147, D34). -/
def fieldOf (idx : Byte) : Option Field :=
  match idx.toNat with
  | 0 => some .timeLow
  | 1 => some .timeMid
  | 2 => some .timeHighAndVersion
  | 3 => some .clockSeqHiAndReserved
  | 4 => some .clockSeqLow
  | 5 => some .node
  | _ => none

/-- The lowest bit of a field and its width (R147, columns `hi:lo` and `w`). -/
def Field.place : Field → Nat × Nat
  | .timeLow => (96, 32)
  | .timeMid => (80, 16)
  | .timeHighAndVersion => (64, 16)
  | .clockSeqHiAndReserved => (56, 8)
  | .clockSeqLow => (48, 8)
  | .node => (0, 48)

/-- `U[RS][hi:lo]` (R149). -/
def getField (u : Ident) (f : Field) : Ident := slice u f.place.1 f.place.2

/-- `U[RD][hi:lo] <- WDATA[w-1:0]` (R148). -/
def setField (u : Ident) (f : Field) (v : Ident) : Ident := setSlice u f.place.1 f.place.2 v

/-! ### Derived fields (R150, R151) and the stamp (42_uuid_generate.md R170) -/

/-- The variant code, from the top three bits of byte 8 (R150, D15; the departure from RFC 4122 is 90_conflicts.md C2). -/
def variantCode (u : Ident) : Ident :=
  let v := slice u 61 3
  if v = 0b000 then 0
  else if v = 0b001 ∨ v = 0b010 ∨ v = 0b011 then 2
  else if v = 0b100 ∨ v = 0b101 then 1
  else if v = 0b110 then 3
  else 4

/-- The version nibble, the top nibble of byte 6 (R151). -/
def versionNibble (u : Ident) : Ident := slice u 76 4

/-- `Stamp(u, ver)`: the version into the top nibble of byte 6, `10` into the top two bits of byte 8 (R170). -/
def stamp (u : Ident) (ver : BitVec 4) : Ident :=
  let r := setByte u 6 ((byteOf u 6 &&& 0x0F#8) ||| (ver.setWidth 8 <<< 4))
  setByte r 8 ((byteOf u 8 &&& 0x3F#8) ||| 0x80#8)

/-! ### Characters (00_scope.md R11) -/

/-- `HexChar(n, case)` as an ASCII code (R11). -/
def hexChar (n : BitVec 4) (c : HexCase) : Byte :=
  if n.toNat < 10 then 0x30#8 + n.setWidth 8
  else match c with
    | .lower => 0x61#8 + (n.setWidth 8 - 10#8)
    | .upper => 0x41#8 + (n.setWidth 8 - 10#8)

/-- `HexVal(c)`, defined on the 22 ASCII digits alone (R11, D19). -/
def hexVal (c : Word) : Option (BitVec 4) :=
  if 0x30 ≤ c.toNat ∧ c.toNat ≤ 0x39 then some (BitVec.ofNat 4 (c.toNat - 0x30))
  else if 0x41 ≤ c.toNat ∧ c.toNat ≤ 0x46 then some (BitVec.ofNat 4 (c.toNat - 0x41 + 10))
  else if 0x61 ≤ c.toNat ∧ c.toNat ≤ 0x66 then some (BitVec.ofNat 4 (c.toNat - 0x61 + 10))
  else none

/-- Nibble `n` of a byte: the high one for an even `n`, the low one for an odd `n` (20_memory.md R55, 44_uuid_format_order.md R218). -/
def nibble (b : Byte) (n : Nat) : BitVec 4 :=
  if n % 2 = 0 then (b >>> 4).setWidth 4 else b.setWidth 4

/-! ### Views of the digest (20_memory.md R55) -/

/-- Digest byte `i`: byte `i mod 4`, the most significant first, of `H[i div 4]`. -/
def digestByte (h : Vector Word 5) (i : Nat) : Byte :=
  ((h.toList.getD (i / 4) 0) >>> (24 - 8 * (i % 4))).setWidth 8

/-- Digest text character `j`: always lower case (R55, 40_sha1.md R114). -/
def digestChar (h : Vector Word 5) (j : Nat) : Byte :=
  hexChar (nibble (digestByte h (j / 2)) j) .lower

/-- Digest bytes 0 to 15, `H[0] ‖ H[1] ‖ H[2] ‖ H[3]` (42_uuid_generate.md R173, R175). -/
def digestHead (h : Vector Word 5) : Ident := h[0] ++ h[1] ++ h[2] ++ h[3]

/-! ### The canonical text (44_uuid_format_order.md R218) -/

/-- The positions of the hyphens in the 36 characters. -/
def hyphenPositions : List Nat := [8, 13, 18, 23]

/-- Character `k` of the canonical text of `u`. -/
def canonicalChar (u : Ident) (c : HexCase) (k : Nat) : Byte :=
  if k ∈ hyphenPositions then 0x2D#8
  else
    let n := k - (hyphenPositions.filter (· < k)).length
    hexChar (nibble (byteOf u (n / 2)) n) c

/-! ### Character classes (43_uuid_parse.md R187) -/

/-- The six classes of R187; a Hex character carries its value. -/
inductive CharClass
  | hex (v : BitVec 4)
  | hyphen
  | openBrace
  | closeBrace
  | ws
  | other
  deriving DecidableEq, Repr

/-- The code points of the classes Hex, Hyphen, Open and Close, which no instance of `IsWs` may contain (R188). -/
def isStructural (c : Word) : Bool :=
  (hexVal c).isSome || c == 0x2D#32 || c == 0x7B#32 || c == 0x7D#32

/-- `IsWs(c)` (R188): U+0020 and the instance's own code points, never a structural one. -/
def isWs (cfg : Config) (c : Word) : Bool :=
  (c == 0x20#32 || cfg.ws.contains c) && !isStructural c

/-- The class of a code point (R187). Every 32-bit value has one (R186). -/
def classify (cfg : Config) (c : Word) : CharClass :=
  match hexVal c with
  | some v => .hex v
  | none =>
    if c = 0x2D#32 then .hyphen
    else if c = 0x7B#32 then .openBrace
    else if c = 0x7D#32 then .closeBrace
    else if isWs cfg c then .ws
    else .other

end Sys2Proof.Machine
end

