-- ==== Sys2Proof/Machine/Flags.lean ====
section
/-! DEFINITION. The flags and what is computed from them: the status codes (60_exceptions.md R231), the two status words
(10_state.md R37), the bracket balance (R33). The core has no arithmetic condition code (R36). -/

namespace Sys2Proof.Machine

/-- `STATUS[3:0]` of a status (R231). -/
def Status.code : Status → BitVec 4
  | .ok => 0
  | .illegalCmd => 1
  | .notFinished => 2

/-- The two bits of `PST` (R31). -/
def ParseState.code : ParseState → BitVec 2
  | .initial => 0
  | .parsing => 1
  | .finished => 2
  | .error => 3

/-- The SHA status word `NBLK ‖ 0 ‖ NBUF ‖ 0 ‖ FIN` (R37, 40_sha1.md R115). -/
def shaStatusWord (m : Sha1Unit) : Ident :=
  m.nblk ++ 0#50 ++ m.nbuf ++ 0#7 ++ BitVec.ofBool m.fin

/-- The parser status word `PDIG << 8 | PBC << 5 | PBO << 4 | PST` (R37, 43_uuid_parse.md R196). -/
def parserStatusWord (p : ParserUnit) : Ident :=
  (p.pdig.setWidth 128 <<< 8) ||| ((BitVec.ofBool p.pbc).setWidth 128 <<< 5) |||
    ((BitVec.ofBool p.pbo).setWidth 128 <<< 4) ||| p.pst.code.setWidth 128

/-- A parse that delivers a value: FINISHED with balanced brackets (R33, R195). -/
def ParserUnit.accepts (p : ParserUnit) : Bool := p.pst = .finished && p.pbo == p.pbc

/-- The three-way result of U.CMP before it is put on the bus, -1, 0 or +1 (44_uuid_format_order.md R216). -/
def compareIdent (a b : Ident) : Int :=
  if a.toNat < b.toNat then -1 else if a = b then 0 else 1

end Sys2Proof.Machine
end

