-- ==== Sys2Proof/Machine/Ops.lean ====
section
/-! DEFINITION. The shared operations: the register file, the response, the two faults, the reset, the host's next action. -/

namespace Sys2Proof.Machine

/-- What a meaning answers. -/
abbrev Result := Host.Outcome State Fault Refusal

/-! ### The UUID register file (10_state.md R28): four registers, none hardwired, none banked -/

/-- `U[r]`. -/
def State.readU (s : State) (r : UReg) : Ident := s.u[r]

/-- `U[r] <- v`. -/
def State.writeU (s : State) (r : UReg) (v : Ident) : State := { s with u := s.u.set r v }

/-! ### The response (00_scope.md R10) -/

/-- The response `(st, v)` is given; nothing else changes. -/
def State.answer (s : State) (st : Status) (v : Ident) : State := { s with out := ⟨st, v⟩ :: s.out }

/-- `respond(v)`: status OK and `v` on RDATA, in the state the command leaves (R10). -/
def respond (v : Ident) (s : State) : Result := .next (s.answer .ok v)

/-! ### Taking an exception (60_exceptions.md R231 to R236): the response and nothing more. No state is saved, no mode changes, control
goes nowhere, and there is no return (R237). -/

/-- `raise`: the command ends with the status `st` and RDATA = 0, and changes no state of R20. -/
def raise (st : Status) (s : State) : Result := .next (s.answer st 0)

/-- A command that uses `IDX`: IllegalCmd outside 0 to `last` (30_encoding.md R75), and that check comes first (R235). The decoder
lets no such command through; on an instruction term outside its range the meaning raises what the word would have raised (log 12). -/
def withIndex (last : Nat) (idx : Byte) (body : State → Result) (s : State) : Result :=
  if idx.toNat ≤ last then body s else raise .illegalCmd s

/-- A digest read: NotFinished while `FIN = 0` (R233), else the view of the accumulators. -/
def readDigest (view : Vector Word 5 → Ident) (s : State) : Result :=
  if s.sha.fin then respond (view s.sha.h) s else raise .notFinished s

/-! ### Reset (10_state.md R39, 60_exceptions.md R240, 70_reset_and_hazards.md R255) -/

/-- The unspecified contents of `BUF` after a reset (R22, R39): free bytes (DESIGN CHOICE, log 6). -/
def freeBuffer (k : Nat) : Vector Byte 64 := Vector.ofFn fun i => Config.freeByte (64 * k + i.val)

/-- Every piece of state of R20 takes its reset value, `BUF` a fresh free value. The reset input and CORE.RESET share this (R240). -/
def State.resetUnits (s : State) : State :=
  { s with
    sha := { State.reset.sha with buf := freeBuffer s.draws }
    u := State.reset.u
    parser := State.reset.parser
    draws := s.draws + 1 }

/-! ### The host's next action (00_scope.md R13) -/

/-- The next action, and the state with it taken from the inbox. -/
def State.nextAction (s : State) : Option (HostAction × State) :=
  match s.inbox with
  | [] => none
  | a :: rest => some (a, { s with inbox := rest })

/-- The command's data operand is on the write-data bus while it executes (30_encoding.md R70). -/
def State.present (s : State) (d : Ident) : State := { s with wdata := d }

/-- The host will do these actions first. -/
def State.enqueueFirst (s : State) (as : List HostAction) : State := { s with inbox := as ++ s.inbox }

end Sys2Proof.Machine
end

