-- ==== Sys2Proof/Machine/Datapath.lean ====
section
/-! DEFINITION. The SHA-1 datapath, 40_sha1.md R103 to R111: block compression, the append path, padding. -/

namespace Sys2Proof.Machine

/-- `ROTL32(x, n)` for `0 < n < 32` (00_scope.md R8). -/
def rotl32 (x : Word) (n : Nat) : Word := (x <<< n) ||| (x >>> (32 - n))

/-- Choice (R108). -/
def ch (x y z : Word) : Word := (x &&& y) ||| (~~~x &&& z)

/-- Parity (R108). -/
def parity (x y z : Word) : Word := x ^^^ y ^^^ z

/-- Majority (R108). -/
def maj (x y z : Word) : Word := (x &&& y) ||| (x &&& z) ||| (y &&& z)

/-- `f(t, x, y, z)`: Ch, Parity, Maj, Parity in four groups of 20 rounds (R108; the group order is 90_conflicts.md C3). -/
def roundFunction (t : Nat) (x y z : Word) : Word :=
  if t ≤ 19 then ch x y z
  else if t ≤ 39 then parity x y z
  else if t ≤ 59 then maj x y z
  else parity x y z

/-- The five working variables of a compression (10_state.md R27): local to it, no state of the core. -/
structure Working where
  a : Word
  b : Word
  c : Word
  d : Word
  e : Word
  deriving DecidableEq, Repr

/-- The round step `Round(t, a, b, c, d, e, w)` (R110). -/
def roundStep (t : Nat) (v : Working) (w : Word) : Working :=
  { a := rotl32 v.a 5 + roundFunction t v.b v.c v.d + v.e + roundConstant t + w
    b := v.a
    c := rotl32 v.b 30
    d := v.c
    e := v.d }

/-- Word `j` of a block, its bytes most significant first (20_memory.md R54). -/
def blockWord (b : Vector Byte 64) (j : Fin 16) : Word :=
  b[4 * j.val] ++ b[4 * j.val + 1] ++ b[4 * j.val + 2] ++ b[4 * j.val + 3]

/-- `n` more words of the schedule, newest first: `W[t]` from `W[t-3]`, `W[t-8]`, `W[t-14]`, `W[t-16]` (R109). -/
def expandSchedule : Nat → List Word → List Word
  | 0, ws => ws
  | n + 1, ws =>
    expandSchedule n (rotl32 (ws.getD 2 0 ^^^ ws.getD 7 0 ^^^ ws.getD 13 0 ^^^ ws.getD 15 0) 1 :: ws)

/-- `Schedule(B)`: the words `W[0..79]` in order (R109). -/
def schedule (b : Vector Byte 64) : List Word :=
  (expandSchedule 64 ((List.finRange 16).map (blockWord b)).reverse).reverse

/-- The rounds from round `t` on, one for each word given (R105). -/
def runRounds : Nat → Working → List Word → Working
  | _, v, [] => v
  | t, v, w :: ws => runRounds (t + 1) (roundStep t v w) ws

/-- `Compress(Hin, B)`: 80 rounds from the accumulators, then the word-wise addition of R111 (R105). -/
def compress (h : Vector Word 5) (b : Vector Byte 64) : Vector Word 5 :=
  let v := runRounds 0 ⟨h[0], h[1], h[2], h[3], h[4]⟩ (schedule b)
  #v[h[0] + v.a, h[1] + v.b, h[2] + v.c, h[3] + v.d, h[4] + v.e]

/-- `AppendRaw(b)` (R104). It does not look at `FIN`. -/
def appendRaw (m : Sha1Unit) (b : Byte) : Sha1Unit :=
  let buf := m.buf.set m.nbuf.toNat b
  if m.nbuf = 63 then { m with h := compress m.h buf, buf := buf, nblk := m.nblk + 1, nbuf := 0 }
  else { m with buf := buf, nbuf := m.nbuf + 1 }

/-- `AppendRaw` of each byte in order. -/
def appendAll (m : Sha1Unit) (bs : List Byte) : Sha1Unit := bs.foldl appendRaw m

/-- The IV load (R101): accumulators, counters and flag; `BUF` is not cleared. -/
def loadIv (m : Sha1Unit) : Sha1Unit := { m with h := iv, nblk := 0, nbuf := 0, fin := false }

/-- `L`, the message length in bits modulo 2^64, before any padding (R103; R119 for the wrap, log 10). -/
def bitLength (m : Sha1Unit) : BitVec 64 := BitVec.ofNat 64 ((m.nblk.toNat * 64 + m.nbuf.toNat) * 8)

/-- The eight bytes of `L`, most significant first (R103, 20_memory.md R54). -/
def lengthBytes (l : BitVec 64) : List Byte :=
  (List.range 8).map fun i => (l >>> (56 - 8 * i)).setWidth 8

/-- `while NBUF != 56 do AppendRaw(0x00)` (R103), at most `fuel` times; 64 are always enough. -/
def padZeros : Nat → Sha1Unit → Sha1Unit
  | 0, m => m
  | fuel + 1, m => if m.nbuf = 56 then m else padZeros fuel (appendRaw m 0x00#8)

/-- The body of SHA.FINISH (R103), which N5.END performs too (42_uuid_generate.md R173). -/
def finishUnit (m : Sha1Unit) : Sha1Unit :=
  if m.fin then m
  else { appendAll (padZeros 64 (appendRaw m 0x80#8)) (lengthBytes (bitLength m)) with fin := true }

end Sys2Proof.Machine
end

