-- ==== Sys2Proof/Machine/Generate.lean ====
section
/-! DEFINITION. The generation family: U.GEN4, N5.BEGIN, N5.END (42_uuid_generate.md). -/

namespace Sys2Proof.Machine

/-- U.GEN4 (R171): the stamp of the 16 entropy bytes, which are the operand (log 8). -/
def execUGen4 (rd : UReg) (s : State) : Result := respond 0 (s.writeU rd (stamp s.wdata 4))

/-- The 16 bytes of an identifier, byte 0 first (R172). -/
def identBytes (u : Ident) : List Byte := (List.range 16).map (byteOf u)

/-- N5.BEGIN (R172): the IV load, then the namespace's bytes through the append path. -/
def execN5Begin (rs : UReg) (s : State) : Result :=
  respond 0 { s with sha := appendAll (loadIv s.sha) (identBytes (s.readU rs)) }

/-- N5.END (R173): the body of SHA.FINISH, the first 16 digest bytes, the stamp. -/
def execN5End (rd : UReg) (s : State) : Result :=
  let m := finishUnit s.sha
  respond 0 ({ s with sha := m }.writeU rd (stamp (digestHead m.h) 5))

end Sys2Proof.Machine
end

