-- ==== Sys2Proof/Machine/Layout.lean ====
section
/-! DEFINITION. The bit-layout family: U.NIL to U.LDNS (41_uuid_layout.md). -/

namespace Sys2Proof.Machine

/-- U.NIL (R141). -/
def execUNil (rd : UReg) (s : State) : Result := respond 0 (s.writeU rd 0)

/-- U.MOV (R142). -/
def execUMov (rd rs : UReg) (s : State) : Result := respond 0 (s.writeU rd (s.readU rs))

/-- U.WR128 (R143). -/
def execUWr128 (rd : UReg) (s : State) : Result := respond 0 (s.writeU rd s.wdata)

/-- U.RD128 (R144). -/
def execURd128 (rs : UReg) (s : State) : Result := respond (s.readU rs) s

/-- U.WRB (R145). -/
def execUWrb (rd : UReg) (idx : Byte) (s : State) : Result :=
  withIndex 15 idx (fun s => respond 0 (s.writeU rd (setByte (s.readU rd) idx.toNat s.dataByte))) s

/-- U.RDB (R146). -/
def execURdb (rs : UReg) (idx : Byte) (s : State) : Result :=
  withIndex 15 idx (fun s => respond ((byteOf (s.readU rs) idx.toNat).setWidth 128) s) s

/-- U.WRF (R148). -/
def execUWrf (rd : UReg) (idx : Byte) (s : State) : Result :=
  match fieldOf idx with
  | some f => respond 0 (s.writeU rd (setField (s.readU rd) f s.wdata))
  | none => raise .illegalCmd s

/-- U.RDF (R149). -/
def execURdf (rs : UReg) (idx : Byte) (s : State) : Result :=
  match fieldOf idx with
  | some f => respond (getField (s.readU rs) f) s
  | none => raise .illegalCmd s

/-- U.VARIANT (R150). -/
def execUVariant (rs : UReg) (s : State) : Result := respond (variantCode (s.readU rs)) s

/-- U.VERSION (R151). -/
def execUVersion (rs : UReg) (s : State) : Result := respond (versionNibble (s.readU rs)) s

/-- U.LDNS (R152). -/
def execULdns (rd : UReg) (idx : Byte) (s : State) : Result :=
  withIndex 3 idx (fun s => respond 0 (s.writeU rd (namespaceRom.toList.getD idx.toNat 0))) s

end Sys2Proof.Machine
end

