-- ==== Sys2Proof/Machine/Order.lean ====
section
/-! DEFINITION. The ordering and formatting family: U.EQ, U.CMP, U.FMTC (44_uuid_format_order.md). -/

namespace Sys2Proof.Machine

/-- U.EQ (R215). -/
def execUEq (rs rt : UReg) (s : State) : Result := respond (if s.readU rs = s.readU rt then 1 else 0) s

/-- U.CMP (R216): the one response that is sign-extended. -/
def execUCmp (rs rt : UReg) (s : State) : Result :=
  respond (BitVec.ofInt 128 (compareIdent (s.readU rs) (s.readU rt))) s

/-- U.FMTC (R218). -/
def execUFmtc (rs : UReg) (idx : Byte) (s : State) : Result :=
  withIndex 35 idx (fun s => respond ((canonicalChar (s.readU rs) s.cfg.fmtCase idx.toNat).setWidth 128) s) s

end Sys2Proof.Machine
end

