-- ==== Sys2Proof/Machine/Parser.lean ====
section
/-! DEFINITION. The parser family: P.START, P.CHAR, P.END, P.STAT (43_uuid_parse.md). -/

namespace Sys2Proof.Machine

/-- Digit `k` goes to the high nibble of `PBUF[k div 2]` for an even `k`, to the low one for an odd `k` (10_state.md R34, R192).
In PARSING `k` is at most 31; past the buffer nothing is written (log 13). -/
def writeDigit (buf : Vector Byte 16) (k : Nat) (v : BitVec 4) : Vector Byte 16 :=
  let old := buf.toList.getD (k / 2) 0
  buf.setIfInBounds (k / 2)
    (if k % 2 = 0 then (v.setWidth 8 <<< 4) ||| (old &&& 0x0F#8) else (old &&& 0xF0#8) ||| v.setWidth 8)

/-- `PST <- ERROR`, nothing else (R194). -/
def ParserUnit.fail (p : ParserUnit) : ParserUnit := { p with pst := .error }

/-- The step in INITIAL (R191). -/
def stepInitial (c : CharClass) (p : ParserUnit) : ParserUnit :=
  match c with
  | .ws => p
  | .openBrace => if p.pbo then p.fail else { p with pbo := true }
  | .hex v => { p with pbuf := writeDigit p.pbuf 0 v, pdig := 1, pst := .parsing }
  | .hyphen | .closeBrace | .other => p.fail

/-- The step in PARSING (R192). -/
def stepParsing (c : CharClass) (p : ParserUnit) : ParserUnit :=
  match c with
  | .hex v =>
    { p with
      pbuf := writeDigit p.pbuf p.pdig.toNat v
      pdig := p.pdig + 1
      pst := if p.pdig + 1 = 32 then .finished else .parsing }
  | .hyphen | .ws => if p.pdig.toNat % 2 = 0 then p else p.fail
  | .openBrace | .closeBrace | .other => p.fail

/-- The step in FINISHED (R193). -/
def stepFinished (c : CharClass) (p : ParserUnit) : ParserUnit :=
  match c with
  | .ws => p
  | .closeBrace => if p.pbo && !p.pbc then { p with pbc := true } else p.fail
  | .hex _ | .hyphen | .openBrace | .other => p.fail

/-- One step of the state machine on a classified character (R190); ERROR is terminal (R194). -/
def parserStep (c : CharClass) (p : ParserUnit) : ParserUnit :=
  match p.pst with
  | .initial => stepInitial c p
  | .parsing => stepParsing c p
  | .finished => stepFinished c p
  | .error => p

/-- P.START (R189). -/
def execPStart (s : State) : Result :=
  respond 0 { s with
    parser := { pst := .initial, pdig := 0, pbo := false, pbc := false, pbuf := Vector.replicate 16 0 } }

/-- P.CHAR (R190): an illegal character is no fault, it moves the parser to ERROR (60_exceptions.md R234). -/
def execPChar (s : State) : Result :=
  respond 0 { s with parser := parserStep (classify s.cfg s.codePoint) s.parser }

/-- P.END (R195): the value and 1 on success, 0 and nothing written on failure; the parser is unchanged. -/
def execPEnd (rd : UReg) (s : State) : Result :=
  if s.parser.accepts then respond 1 (s.writeU rd (identOfBytes s.parser.pbuf)) else respond 0 s

/-- P.STAT (R196). -/
def execPStat (s : State) : Result := respond (parserStatusWord s.parser) s

end Sys2Proof.Machine
end

