-- ==== Sys2Proof/Machine/Sha1.lean ====
section
/-! DEFINITION. The SHA-1 family: SHA.INIT, SHA.APPEND, SHA.FINISH, SHA.RDW, SHA.RDB, SHA.RDHEX, SHA.STAT (40_sha1.md). -/

namespace Sys2Proof.Machine

/-- SHA.INIT (R101). -/
def execShaInit (s : State) : Result := respond 0 { s with sha := loadIv s.sha }

/-- SHA.APPEND (R102): nothing while `FIN = 1`. -/
def execShaAppend (s : State) : Result :=
  respond 0 { s with sha := if s.sha.fin then s.sha else appendRaw s.sha s.dataByte }

/-- SHA.FINISH (R103): nothing while `FIN = 1`. -/
def execShaFinish (s : State) : Result := respond 0 { s with sha := finishUnit s.sha }

/-- SHA.RDW (R112). -/
def execShaRdw (idx : Byte) (s : State) : Result :=
  withIndex 4 idx (readDigest fun h => (h.toList.getD idx.toNat 0).setWidth 128) s

/-- SHA.RDB (R113). -/
def execShaRdb (idx : Byte) (s : State) : Result :=
  withIndex 19 idx (readDigest fun h => (digestByte h idx.toNat).setWidth 128) s

/-- SHA.RDHEX (R114). -/
def execShaRdhex (idx : Byte) (s : State) : Result :=
  withIndex 39 idx (readDigest fun h => (digestChar h idx.toNat).setWidth 128) s

/-- SHA.STAT (R115). -/
def execShaStat (s : State) : Result := respond (shaStatusWord s.sha) s

end Sys2Proof.Machine
end

