-- ==== Sys2Proof/Machine/System.lean ====
section
/-! DEFINITION. The core-control command, 60_exceptions.md R240. -/

namespace Sys2Proof.Machine

/-- CORE.RESET (R240): the same effect as the reset input, and a response. -/
def execCoreReset (s : State) : Result := respond 0 s.resetUnits

end Sys2Proof.Machine
end

