-- ==== Sys2Proof/Machine/Dispatch.lean ====
section
/-! DEFINITION. One arm per command: the meaning of each is a definition of its own. -/

namespace Sys2Proof.Machine

/-- The execution of a decoded command, its data operand on `wdata`. -/
def exec (i : Instr) (s : State) : Host.Outcome State Fault Refusal :=
  match i with
  | .coreReset => Sys2Proof.Machine.execCoreReset s
  | .shaInit => Sys2Proof.Machine.execShaInit s
  | .shaAppend => Sys2Proof.Machine.execShaAppend s
  | .shaFinish => Sys2Proof.Machine.execShaFinish s
  | .shaRdw idx => Sys2Proof.Machine.execShaRdw idx s
  | .shaRdb idx => Sys2Proof.Machine.execShaRdb idx s
  | .shaRdhex idx => Sys2Proof.Machine.execShaRdhex idx s
  | .shaStat => Sys2Proof.Machine.execShaStat s
  | .uNil rd => Sys2Proof.Machine.execUNil rd s
  | .uMov rd rs => Sys2Proof.Machine.execUMov rd rs s
  | .uWr128 rd => Sys2Proof.Machine.execUWr128 rd s
  | .uRd128 rs => Sys2Proof.Machine.execURd128 rs s
  | .uWrb rd idx => Sys2Proof.Machine.execUWrb rd idx s
  | .uRdb rs idx => Sys2Proof.Machine.execURdb rs idx s
  | .uWrf rd idx => Sys2Proof.Machine.execUWrf rd idx s
  | .uRdf rs idx => Sys2Proof.Machine.execURdf rs idx s
  | .uVariant rs => Sys2Proof.Machine.execUVariant rs s
  | .uVersion rs => Sys2Proof.Machine.execUVersion rs s
  | .uLdns rd idx => Sys2Proof.Machine.execULdns rd idx s
  | .uEq rs rt => Sys2Proof.Machine.execUEq rs rt s
  | .uCmp rs rt => Sys2Proof.Machine.execUCmp rs rt s
  | .uFmtc rs idx => Sys2Proof.Machine.execUFmtc rs idx s
  | .uGen4 rd => Sys2Proof.Machine.execUGen4 rd s
  | .n5Begin rs => Sys2Proof.Machine.execN5Begin rs s
  | .n5End rd => Sys2Proof.Machine.execN5End rd s
  | .pStart => Sys2Proof.Machine.execPStart s
  | .pChar => Sys2Proof.Machine.execPChar s
  | .pEnd rd => Sys2Proof.Machine.execPEnd rd s
  | .pStat => Sys2Proof.Machine.execPStat s

end Sys2Proof.Machine
end

