-- ==== Sys2Proof/Machine/Issue.lean ====
section
/-! DEFINITION. A command word presented to the core: decoding, then execution or IllegalCmd. -/

namespace Sys2Proof.Machine

/-- The command word `w` with its data operand on the bus: decode is completed first (60_exceptions.md R235), a word that spells no
command raises IllegalCmd (30_encoding.md R76, R232). -/
def runCommand (w : Word) (s : State) : Result :=
  match decode w with
  | .instr i => exec i s
  | .illegal _ => raise .illegalCmd s

/-- One action of the host: a command word with its write data (R70), or the reset input, which produces no response (R255). -/
def runAction (a : HostAction) (s : State) : Result :=
  match a with
  | .command w d => runCommand w (s.present d)
  | .reset => .next s.resetUnits

/-- The host action that holds an instruction of `nbits` bits read from `w`: the low 32 bits are the command word, the bits above
them the write data, zero where `nbits` is 32 (log 2). -/
def actionOfBits (nbits w : Nat) : HostAction :=
  let v := w % 2 ^ nbits
  .command (BitVec.ofNat 32 v) (BitVec.ofNat 128 (v / 2 ^ 32))

end Sys2Proof.Machine
end

