-- ==== Sys2Proof/Machine/Step.lean ====
section
/-! DEFINITION. One step: the host's next action, executed to completion (00_scope.md R13). -/

namespace Sys2Proof.Machine

/-- One step: the next action of the host, whole. With no action pending the core keeps its state (DESIGN CHOICE, log 1). -/
def step (s : State) : Host.Outcome State Fault Refusal :=
  match s.nextAction with
  | some (a, s') => runAction a s'
  | none => .next s

/-- The state in which the host's next action presents the instruction whose bits are `w`, before every action already pending
(log 1, 2). -/
def State.withFetchWord (s : State) (nbits w : Nat) : State := s.enqueueFirst [actionOfBits nbits w]

end Sys2Proof.Machine
end

