-- ==== Sys2Proof/Machine/Pseudo.lean ====
section
/-! DEFINITION. The pseudo-instructions of 30_encoding.md R79: command sequences the host issues. The expansion is the whole meaning. -/

namespace Sys2Proof.Machine

/-- The command `i` with the data operand `d`; a command without one is issued with 0 on the bus, which it ignores (R72). -/
def command (i : Instr) (d : Ident := 0) : HostAction := .command (encode i) d

/-- `SHA.APPENDN #b0, …` (`append(buffer, length)`). -/
def pseudoAppendN (bs : List Byte) : List HostAction := bs.map fun b => command .shaAppend (b.setWidth 128)

/-- The UTF-8 bytes of a text: the transcoding R79 gives to the assembler. -/
def utf8Bytes (text : List Char) : List Byte :=
  text.flatMap fun c => (String.utf8EncodeChar c).map UInt8.toBitVec

/-- `SHA.APPENDS "text"` (`append(text)`). -/
def pseudoAppendS (text : List Char) : List HostAction := pseudoAppendN (utf8Bytes text)

/-- `SHA.VALUE` (`value()`): the five words of the digest, most significant first. -/
def pseudoValue : List HostAction := (List.range 5).map fun i => command (.shaRdw (BitVec.ofNat 8 i))

/-- `SHA.HEX`: the 40 characters of the digest text. -/
def pseudoHex : List HostAction := (List.range 40).map fun j => command (.shaRdhex (BitVec.ofNat 8 j))

/-- `U.PACK Ud, #tl, #tm, #thv, #csh, #csl, #node`: explicit field construction by one U.WR128. -/
def pseudoPack (rd : UReg) (tl : BitVec 32) (tm thv : BitVec 16) (csh csl : Byte) (node : BitVec 48) : List HostAction :=
  [command (.uWr128 rd) (tl ++ tm ++ thv ++ csh ++ csl ++ node)]

/-- `U.GEN5 Ud, Us, #b0, …` (`generate_named`). -/
def pseudoGen5 (rd rs : UReg) (name : List Byte) : List HostAction :=
  command (.n5Begin rs) :: (pseudoAppendN name ++ [command (.n5End rd)])

/-- P.CHAR of each code point in order. -/
def parseChars (cs : List Word) : List HostAction := cs.map fun c => command .pChar (c.setWidth 128)

/-- `U.PARSE Ud, c0, …`: the parse of a code-point sequence. -/
def pseudoParse (rd : UReg) (cs : List Word) : List HostAction :=
  command .pStart :: (parseChars cs ++ [command (.pEnd rd)])

/-- `U.FMT Us`: the 36 characters of the canonical text. -/
def pseudoFmt (rs : UReg) : List HostAction := (List.range 36).map fun k => command (.uFmtc rs (BitVec.ofNat 8 k))

end Sys2Proof.Machine
end

