-- ==== Sys2Proof/Machine/Assembler.lean ====
section
/-! DEFINITION. The assembler syntax of 30_encoding.md R78, with the pseudo-instructions of R79. It turns a line of text into what the
host issues; the core itself reads no text. Points R78 leaves open are in log 14. -/

namespace Sys2Proof.Machine.Asm

/-- A blank between tokens. -/
def isBlank (c : Char) : Bool := c == ' ' || c == '\t' || c == '\r'

/-- The text without blanks at its two ends. -/
def trim (cs : List Char) : List Char := ((cs.dropWhile isBlank).reverse.dropWhile isBlank).reverse

/-- The line without its comment, which starts at a `;` outside a quoted character and outside a quoted text. -/
def stripComment : Bool → List Char → List Char
  | _, [] => []
  | false, '\'' :: c :: '\'' :: rest => '\'' :: c :: '\'' :: stripComment false rest
  | false, ';' :: _ => []
  | inText, '"' :: rest => '"' :: stripComment (!inText) rest
  | inText, c :: rest => c :: stripComment inText rest

/-- The operands between commas; a quoted character may be a comma. -/
def splitOperands : List Char → List Char → List (List Char)
  | acc, [] => [trim acc.reverse]
  | acc, '\'' :: c :: '\'' :: rest => splitOperands ('\'' :: c :: '\'' :: acc) rest
  | acc, ',' :: rest => trim acc.reverse :: splitOperands [] rest
  | acc, c :: rest => splitOperands (c :: acc) rest

/-- The operands of a command's text after its mnemonic. -/
def operands (cs : List Char) : List (List Char) := if trim cs = [] then [] else splitOperands [] cs

/-- The value of a digit character in base 10 or 16. -/
def digitValue (base : Nat) (c : Char) : Option Nat :=
  let v := hexVal (BitVec.ofNat 32 c.toNat)
  match v with
  | some d => if d.toNat < base then some d.toNat else none
  | none => none

/-- A non-empty run of digits, most significant first. -/
def digits (base : Nat) : List Char → Option Nat
  | [] => none
  | cs => cs.foldl (fun n c => match n, digitValue base c with
      | some n, some d => some (n * base + d)
      | _, _ => none) (some 0)

/-- A number: hexadecimal with `0x`, decimal, or a quoted ASCII character (R78). -/
def literal : List Char → Option Nat
  | '0' :: 'x' :: hs => digits 16 hs
  | ['\'', c, '\''] => if c.toNat < 128 then some c.toNat else none
  | cs => digits 10 cs

/-- A data operand of at most `w` bits, introduced by `#`. -/
def dataOperand (w : Nat) : List Char → Option (BitVec w)
  | '#' :: cs =>
    match literal (trim cs) with
    | some n => if n < 2 ^ w then some (BitVec.ofNat w n) else none
    | none => none
  | _ => none

/-- A code point of U.PARSE, with or without `#` (R79 writes it without). -/
def codePointOperand (cs : List Char) : Option Word :=
  match cs with
  | '#' :: _ => dataOperand 32 cs
  | _ => dataOperand 32 ('#' :: cs)

/-- `U0` to `U3`. -/
def register : List Char → Option UReg
  | ['U', '0'] => some 0
  | ['U', '1'] => some 1
  | ['U', '2'] => some 2
  | ['U', '3'] => some 3
  | _ => none

/-- The names that may stand for `IDX`: the fields of 41_uuid_layout.md R147 for U.WRF and U.RDF, the namespaces for U.LDNS. -/
def indexNames (op : Byte) : List String :=
  if op = 0x26#8 ∨ op = 0x27#8 then ["TL", "TM", "THV", "CSH", "CSL", "NODE"]
  else if op = 0x2A#8 then ["DNS", "URL", "OID", "X500"]
  else []

/-- `IDX`: a decimal number that fits the 8 bits of the field, or a name. The row's range is not looked at: R78 asks for a decimal number, and
the command word of one past the range is what raises IllegalCmd (95_test_vectors.md P4, steps 16 and 25). -/
def indexOperand (op : Byte) (cs : List Char) : Option Byte :=
  match (indexNames op).findIdx? (fun s => s.toList == cs) with
  | some k => some (BitVec.ofNat 8 k)
  | none =>
    match digits 10 cs with
    | some n => if n < 256 then some (BitVec.ofNat 8 n) else none
    | none => none

/-- The commands with a data operand (R72). -/
def takesData (i : Instr) : Bool :=
  match i with
  | .shaAppend | .uWr128 _ | .uGen4 _ | .uWrb _ _ | .uWrf _ _ | .pChar => true
  | .coreReset | .shaInit | .shaFinish | .shaRdw _ | .shaRdb _ | .shaRdhex _ | .shaStat => false
  | .uNil _ | .uMov _ _ | .uRd128 _ | .uRdb _ _ | .uRdf _ _ | .uVariant _ | .uVersion _ | .uLdns _ _ => false
  | .uEq _ _ | .uCmp _ _ | .uFmtc _ _ | .n5Begin _ | .n5End _ | .pStart | .pEnd _ | .pStat => false

/-- A register operand, taken from the operands where the row uses the field whose low bit is `lo`, else 0. -/
def takeRegister (r : Row) (lo : Nat) (ops : List (List Char)) : Option (UReg × List (List Char)) :=
  if r.mask.getLsbD lo then some (0, ops)
  else match ops with
    | o :: rest => (register o).map fun u => (u, rest)
    | [] => none

/-- The index operand, where the row uses `IDX`, else 0. -/
def takeIndex (r : Row) (ops : List (List Char)) : Option (Byte × List (List Char)) :=
  match r.idxLast, ops with
  | none, ops => some (0, ops)
  | some _, o :: rest => (indexOperand (opField r.pat) o).map fun x => (x, rest)
  | some _, [] => none

/-- The data operand, where the command has one, else 0; nothing may stand after it. -/
def takeData (i : Instr) (ops : List (List Char)) : Option Ident :=
  match takesData i, ops with
  | true, [o] => dataOperand 128 o
  | false, [] => some 0
  | _, _ => none

/-- One command: operands in the order `RD`, `RS`, `RT`, `IDX`, then the data operand (R78). -/
def oneCommand (r : Row) (ops : List (List Char)) : Option (List HostAction) := do
  let (rd, ops) ← takeRegister r 22 ops
  let (rs, ops) ← takeRegister r 20 ops
  let (rt, ops) ← takeRegister r 18 ops
  let (idx, ops) ← takeIndex r ops
  let i := r.build rd rs rt idx
  let d ← takeData i ops
  some [command i d]

/-- A text in double quotes. -/
def quotedText (cs : List Char) : Option (List Char) :=
  match trim cs with
  | '"' :: rest =>
    match rest.reverse with
    | '"' :: text => if '"' ∈ text then none else some text.reverse
    | _ => none
  | _ => none

/-- The pseudo-instructions (R79). -/
def pseudo (mnemonic : List Char) (text : List Char) : Option (List HostAction) :=
  let ops := operands text
  if mnemonic = "SHA.APPENDN".toList then (ops.mapM (dataOperand 8)).map pseudoAppendN
  else if mnemonic = "SHA.APPENDS".toList then (quotedText text).map pseudoAppendS
  else if mnemonic = "SHA.VALUE".toList then (if ops = [] then some pseudoValue else none)
  else if mnemonic = "SHA.HEX".toList then (if ops = [] then some pseudoHex else none)
  else if mnemonic = "U.PACK".toList then
    match ops with
    | [rd, tl, tm, thv, csh, csl, node] => do
      some (pseudoPack (← register rd) (← dataOperand 32 tl) (← dataOperand 16 tm) (← dataOperand 16 thv)
        (← dataOperand 8 csh) (← dataOperand 8 csl) (← dataOperand 48 node))
    | _ => none
  else if mnemonic = "U.GEN5".toList then
    match ops with
    | rd :: rs :: name => do some (pseudoGen5 (← register rd) (← register rs) (← name.mapM (dataOperand 8)))
    | _ => none
  else if mnemonic = "U.PARSE".toList then
    match ops with
    | rd :: cs => do some (pseudoParse (← register rd) (← cs.mapM codePointOperand))
    | _ => none
  else if mnemonic = "U.FMT".toList then
    match ops with
    | [rs] => (register rs).map pseudoFmt
    | _ => none
  else none

/-- One line: nothing, a command, or a pseudo-instruction; `none` where it is not of R78's form. -/
def assembleLine (line : List Char) : Option (List HostAction) :=
  let text := trim (stripComment false line)
  let mnemonic := text.takeWhile fun c => !isBlank c
  let rest := text.dropWhile fun c => !isBlank c
  if text = [] then some []
  else match rows.find? (fun r => r.mnemonic.toList == mnemonic) with
    | some r => oneCommand r (operands rest)
    | none => pseudo mnemonic rest

/-- The lines of a text. -/
def lines : List Char → List Char → List (List Char)
  | acc, [] => [acc.reverse]
  | acc, '\n' :: rest => acc.reverse :: lines [] rest
  | acc, c :: rest => lines (c :: acc) rest

/-- A program text, one command per line (R78): the actions the host issues, in order. -/
def assemble (text : List Char) : Option (List HostAction) :=
  ((lines [] text).mapM assembleLine).map List.flatten

end Sys2Proof.Machine.Asm
end

