-- ==== Sys2Proof/Safety.lean ====
section
/-! DEFINITION. The terms in which statements speak of runs: the invariants of 10_state.md, what of a state can ever be observed, the
one-shot SHA-1 of a message, the language of the parser. None of this is used by the machine. -/

namespace Sys2Proof.Machine

/-! ### Invariants between commands -/

/-- R24, R26: `NBUF <= 63` holds by its width; a finished unit buffers nothing. -/
abbrev Sha1Unit.Inv (m : Sha1Unit) : Prop := m.fin = true → m.nbuf = 0

/-- Hex digit `k` of the parser's output buffer, the high nibble of a byte first (R34). -/
def bufferDigit (buf : Vector Byte 16) (k : Nat) : BitVec 4 := nibble (buf.toList.getD (k / 2) 0) k

/-- The digit count that belongs to each parser state (R32). -/
abbrev ParserUnit.CountOk (p : ParserUnit) : Prop :=
  match p.pst with
  | .initial => p.pdig = 0
  | .parsing => 1 ≤ p.pdig.toNat ∧ p.pdig.toNat ≤ 31
  | .finished => p.pdig = 32
  | .error => p.pdig.toNat ≤ 32

/-- R32, R33, R34: the count fits the state; a closing brace was accepted only after an opening one and 32 digits; every digit of the
output buffer that was not consumed yet is still the zero of P.START. -/
abbrev ParserUnit.Inv (p : ParserUnit) : Prop :=
  p.CountOk ∧ (p.pbc = true → p.pbo = true ∧ p.pdig = 32) ∧
    ∀ k < 32, p.pdig.toNat ≤ k → bufferDigit p.pbuf k = 0

/-- The invariant of the machine. -/
abbrev State.Inv (s : State) : Prop := s.sha.Inv ∧ s.parser.Inv

/-! ### What can be observed -/

/-- Two SHA-1 units that differ at most in the bytes of `BUF` from `NBUF` on, which hold no meaningful value (R22). -/
structure Sha1Unit.SameMessage (m n : Sha1Unit) : Prop where
  h : m.h = n.h
  nblk : m.nblk = n.nblk
  nbuf : m.nbuf = n.nbuf
  fin : m.fin = n.fin
  buf : ∀ i : Fin 64, i.val < m.nbuf.toNat → m.buf[i] = n.buf[i]

/-- Two states that differ at most in those bytes and in how often free contents of `BUF` were drawn. -/
structure State.SameVisible (s t : State) : Prop where
  sha : s.sha.SameMessage t.sha
  u : s.u = t.u
  parser : s.parser = t.parser
  cfg : s.cfg = t.cfg
  inbox : s.inbox = t.inbox
  wdata : s.wdata = t.wdata
  out : s.out = t.out

/-! ### Runs (70_reset_and_hazards.md R265) -/

/-- The run of a command sequence from `s`: the host issues `as`, then the core has executed them all. -/
def runAll (as : List HostAction) (s : State) : Result := Sys2Proof.core.run as.length (s.enqueueFirst as)

/-! ### The one-shot digest -/

/-- The padding of a message of `len` bytes: 0x80, zeros to 56 bytes in the last block, the bit length modulo 2^64 big-endian
(40_sha1.md R103). -/
def messagePadding (len : Nat) : List Byte :=
  0x80#8 :: (List.replicate ((119 - len % 64) % 64) 0x00#8 ++
    (List.range 8).map fun i => BitVec.ofNat 8 (len * 8 / 2 ^ (56 - 8 * i)))

/-- Block `j` of a padded message. -/
def messageBlock (bs : List Byte) (j : Nat) : Vector Byte 64 := Vector.ofFn fun i => bs.getD (64 * j + i.val) 0

/-- The accumulators after a whole message: its padded blocks compressed in order from the IV. -/
def sha1Of (msg : List Byte) : Vector Word 5 :=
  let bs := msg ++ messagePadding msg.length
  (List.range (bs.length / 64)).foldl (fun h j => compress h (messageBlock bs j)) iv

/-! ### The accepted language (43_uuid_parse.md R198) -/

/-- `v` is the value of the hex digit `c`: ASCII 0-9, A-F, a-f (00_scope.md R11). -/
def HexDigit (c : Word) (v : Nat) : Prop :=
  (0x30 ≤ c.toNat ∧ c.toNat ≤ 0x39 ∧ v = c.toNat - 0x30) ∨
  (0x41 ≤ c.toNat ∧ c.toNat ≤ 0x46 ∧ v = c.toNat - 0x41 + 10) ∨
  (0x61 ≤ c.toNat ∧ c.toNat ≤ 0x66 ∧ v = c.toNat - 0x61 + 10)

/-- A run of whitespace, which may be empty. -/
def WsRun (cfg : Config) (cs : List Word) : Prop := ∀ c ∈ cs, isWs cfg c = true

/-- A run of hyphens and whitespace, which may be empty. -/
def SeparatorRun (cfg : Config) (cs : List Word) : Prop := ∀ c ∈ cs, c = 0x2D#32 ∨ isWs cfg c = true

/-- Bytes written as pairs of hex digits, with a run of separators between any two pairs. -/
inductive DigitPairs (cfg : Config) : List Byte → List Word → Prop
  | last (hi lo : Word) (x y : Nat) (hx : HexDigit hi x) (hy : HexDigit lo y) :
      DigitPairs cfg [BitVec.ofNat 8 (16 * x + y)] [hi, lo]
  | more (hi lo : Word) (x y : Nat) (sep rest : List Word) (bytes : List Byte)
      (hx : HexDigit hi x) (hy : HexDigit lo y) (hsep : SeparatorRun cfg sep) (hrest : DigitPairs cfg bytes rest) :
      DigitPairs cfg (BitVec.ofNat 8 (16 * x + y) :: bytes) (hi :: lo :: (sep ++ rest))

/-- The text `cs` spells the 16 bytes `bytes` in one of the dialects of R198: bare, or between one pair of braces. -/
def Spells (cfg : Config) (bytes : List Byte) (cs : List Word) : Prop :=
  bytes.length = 16 ∧ ∃ before body after, WsRun cfg before ∧ DigitPairs cfg bytes body ∧ WsRun cfg after ∧
    (cs = before ++ body ++ after ∨
      ∃ inner inner', WsRun cfg inner ∧ WsRun cfg inner' ∧
        cs = before ++ [0x7B#32] ++ inner ++ body ++ inner' ++ [0x7D#32] ++ after)

end Sys2Proof.Machine
end

