-- ==== Sys2Proof/Certificates/Slice0/Obligations.lean ====
section
/-! DEFINITION. The statements about the core. Each docstring names the rule it formalises; what the statements share is in the namespace
Sys2Proof.Claims, written from the spec's tables and not from the model's definitions. -/

open Sys2Proof Sys2Proof.Machine

namespace Sys2Proof.Claims

/-! ### The command table of 30_encoding.md R73, by its column "uses" -/

/-- A row of R73: the opcode, which register fields the command reads, and the last index of its range where it reads `IDX`. -/
structure Uses where
  op : Nat
  rd : Bool
  rs : Bool
  rt : Bool
  idxLast : Option Nat

/-- The 29 rows of R73. -/
def usesTable : List Uses :=
  [ ⟨0x0F, false, false, false, none⟩, ⟨0x10, false, false, false, none⟩, ⟨0x11, false, false, false, none⟩,
    ⟨0x12, false, false, false, none⟩, ⟨0x13, false, false, false, some 4⟩, ⟨0x14, false, false, false, some 19⟩,
    ⟨0x15, false, false, false, some 39⟩, ⟨0x16, false, false, false, none⟩, ⟨0x20, true, false, false, none⟩,
    ⟨0x21, true, true, false, none⟩, ⟨0x22, true, false, false, none⟩, ⟨0x23, false, true, false, none⟩,
    ⟨0x24, true, false, false, some 15⟩, ⟨0x25, false, true, false, some 15⟩, ⟨0x26, true, false, false, some 5⟩,
    ⟨0x27, false, true, false, some 5⟩, ⟨0x28, false, true, false, none⟩, ⟨0x29, false, true, false, none⟩,
    ⟨0x2A, true, false, false, some 3⟩, ⟨0x2C, false, true, true, none⟩, ⟨0x2D, false, true, true, none⟩,
    ⟨0x2E, false, true, false, some 35⟩, ⟨0x30, true, false, false, none⟩, ⟨0x31, false, true, false, none⟩,
    ⟨0x32, true, false, false, none⟩, ⟨0x40, false, false, false, none⟩, ⟨0x41, false, false, false, none⟩,
    ⟨0x42, true, false, false, none⟩, ⟨0x43, false, false, false, none⟩ ]

/-- The word `w` selects the row: its opcode, `Z` zero, every field the row does not use zero (R74), the index in range (R75). -/
def Uses.Selects (r : Uses) (w : Word) : Prop :=
  (w.extractLsb' 24 8).toNat = r.op ∧ w.extractLsb' 8 10 = 0 ∧
  (r.rd = false → w.extractLsb' 22 2 = 0) ∧ (r.rs = false → w.extractLsb' 20 2 = 0) ∧ (r.rt = false → w.extractLsb' 18 2 = 0) ∧
  (w.extractLsb' 0 8).toNat ≤ r.idxLast.getD 0

/-- The word spells a command. -/
def SpellsCommand (w : Word) : Prop := ∃ r ∈ usesTable, r.Selects w

/-- Command words written out from the spec, at least one for each of the 29 commands: 30_encoding.md R73 (column "match") and R78,
95_test_vectors.md 2.6 and the programs P1 to P4. -/
def specWords : List (Word × Instr) :=
  [ (0x0F000000#32, .coreReset), (0x10000000#32, .shaInit), (0x11000000#32, .shaAppend), (0x12000000#32, .shaFinish),
    (0x13000004#32, .shaRdw 4), (0x14000013#32, .shaRdb 19), (0x15000027#32, .shaRdhex 39), (0x16000000#32, .shaStat),
    (0x20C00000#32, .uNil 3), (0x21400000#32, .uMov 1 0), (0x22C00000#32, .uWr128 3), (0x23300000#32, .uRd128 3),
    (0x24400006#32, .uWrb 1 6), (0x25000008#32, .uRdb 0 8), (0x26800002#32, .uWrf 2 2), (0x27300005#32, .uRdf 3 5) ] ++
  [ (0x28200000#32, .uVariant 2), (0x29300000#32, .uVersion 3), (0x2A400003#32, .uLdns 1 3), (0x2C180000#32, .uEq 1 2),
    (0x2D0C0000#32, .uCmp 0 3), (0x2E100023#32, .uFmtc 1 35), (0x30C00000#32, .uGen4 3), (0x31300000#32, .n5Begin 3),
    (0x32400000#32, .n5End 1), (0x40000000#32, .pStart), (0x41000000#32, .pChar), (0x42800000#32, .pEnd 2),
    (0x43000000#32, .pStat) ]

/-! ### Effects -/

/-- From `s` the command `i` answers `(OK, v)` and changes nothing else. -/
def Answers (i : Instr) (s : State) (v : Ident) : Prop := exec i s = .next { s with out := ⟨.ok, v⟩ :: s.out }

/-- From `s` the command `i` ends with the status `st` and RDATA = 0, and changes nothing else. -/
def Raises (i : Instr) (s : State) (st : Status) : Prop := exec i s = .next { s with out := ⟨st, 0⟩ :: s.out }

/-- `t` is `s` with `v` in the register `rd`, every other register and unit as in `s`, and the response `(OK, a)` given. -/
def WritesRegister (s t : State) (rd : UReg) (v a : Ident) : Prop :=
  (∀ r : UReg, t.u[r] = if r = rd then v else s.u[r]) ∧ t.sha = s.sha ∧ t.parser = s.parser ∧ t.cfg = s.cfg ∧ t.inbox = s.inbox ∧
    t.wdata = s.wdata ∧ t.draws = s.draws ∧ t.out = ⟨.ok, a⟩ :: s.out

/-- `t` is `s` but for the SHA-1 unit, and the response `(OK, 0)` is given. -/
def TouchesOnlySha (s t : State) : Prop :=
  t.u = s.u ∧ t.parser = s.parser ∧ t.cfg = s.cfg ∧ t.inbox = s.inbox ∧ t.wdata = s.wdata ∧ t.draws = s.draws ∧
    t.out = ⟨.ok, 0⟩ :: s.out

/-- `t` is `s` but for the parser, and the response `(OK, 0)` is given. -/
def TouchesOnlyParser (s t : State) : Prop :=
  t.u = s.u ∧ t.sha = s.sha ∧ t.cfg = s.cfg ∧ t.inbox = s.inbox ∧ t.wdata = s.wdata ∧ t.draws = s.draws ∧
    t.out = ⟨.ok, 0⟩ :: s.out

/-- The reset values of 10_state.md R39, every one but the unspecified `BUF`; the IV is that of 40_sha1.md R106, whose words the spec marks as
general knowledge, not in its source (D28). -/
def AtReset (t : State) : Prop :=
  t.sha.h = #v[0x67452301#32, 0xEFCDAB89#32, 0x98BADCFE#32, 0x10325476#32, 0xC3D2E1F0#32] ∧
  t.sha.nblk = 0 ∧ t.sha.nbuf = 0 ∧ t.sha.fin = false ∧ (∀ r : UReg, t.u[r] = 0) ∧
  t.parser.pst = .initial ∧ t.parser.pdig = 0 ∧ t.parser.pbo = false ∧ t.parser.pbc = false ∧ ∀ i : Fin 16, t.parser.pbuf[i] = 0

/-! ### Values -/

/-- Byte `i` of an identifier, bits `127-8i : 120-8i` (00_scope.md R9). -/
def byteAt (u : Ident) (i : Nat) : Byte := u.extractLsb' (120 - 8 * i) 8

/-- The place of each field: FSEL, lowest bit, width (41_uuid_layout.md R147). -/
def fieldTable : List (Nat × Nat × Nat) := [(0, 96, 32), (1, 80, 16), (2, 64, 16), (3, 56, 8), (4, 48, 8), (5, 0, 48)]

/-- The 160-bit digest `H[0] ‖ H[1] ‖ H[2] ‖ H[3] ‖ H[4]` (10_state.md R21). -/
def digest (h : Vector Word 5) : BitVec 160 := h[0] ++ h[1] ++ h[2] ++ h[3] ++ h[4]

/-- The ASCII codes of the characters `0123456789abcdef` (00_scope.md R11). -/
def lowerDigits : List Byte :=
  [0x30, 0x31, 0x32, 0x33, 0x34, 0x35, 0x36, 0x37, 0x38, 0x39, 0x61, 0x62, 0x63, 0x64, 0x65, 0x66]

/-- The ASCII codes of the characters `0123456789ABCDEF` (R11). -/
def upperDigits : List Byte :=
  [0x30, 0x31, 0x32, 0x33, 0x34, 0x35, 0x36, 0x37, 0x38, 0x39, 0x41, 0x42, 0x43, 0x44, 0x45, 0x46]

/-- The digits of a case. -/
def digitsOf : HexCase → List Byte
  | .lower => lowerDigits
  | .upper => upperDigits

/-- The positions of the 32 digits among the 36 characters of the canonical text, in order: groups of 8, 4, 4, 4 and 12 with a hyphen
between them (44_uuid_format_order.md R218). -/
def digitPositions : List Nat :=
  [0, 1, 2, 3, 4, 5, 6, 7, 9, 10, 11, 12, 14, 15, 16, 17, 19, 20, 21, 22, 24, 25, 26, 27, 28, 29, 30, 31, 32, 33, 34, 35]

/-- `v` is `d` with the version nibble `ver` and the variant bits `10` forced in (42_uuid_generate.md R170). -/
def Stamped (d v : Ident) (ver : BitVec 4) : Prop :=
  v.extractLsb' 76 4 = ver ∧ v.extractLsb' 62 2 = 0b10#2 ∧
    ∀ k < 128, ¬ (76 ≤ k ∧ k < 80) → ¬ (62 ≤ k ∧ k < 64) → v.getLsbD k = d.getLsbD k

/-- The additive constant of round `t` (40_sha1.md R107). -/
def kOf (t : Nat) : Word := [0x5A827999#32, 0x6ED9EBA1#32, 0x8F1BBCDC#32, 0xCA62C1D6#32].getD (t / 20) 0

/-- The round function of round `t` (40_sha1.md R108). -/
def fOf (t : Nat) (x y z : Word) : Word :=
  if t < 20 then (x &&& y) ||| (~~~x &&& z)
  else if t < 40 then x ^^^ y ^^^ z
  else if t < 60 then (x &&& y) ||| (x &&& z) ||| (y &&& z)
  else x ^^^ y ^^^ z

/-- Byte `i` of the 64-bit big-endian message length that SHA.FINISH appends (40_sha1.md R103). -/
def lengthByte (m : Sha1Unit) (i : Nat) : Byte :=
  BitVec.ofNat 8 ((m.nblk.toNat * 64 + m.nbuf.toNat) * 8 % 2 ^ 64 / 2 ^ (56 - 8 * i))

/-- The block that ends in the length: what precedes is given by `f`. -/
def lastBlock (m : Sha1Unit) (f : Fin 64 → Byte) : Vector Byte 64 :=
  Vector.ofFn fun i => if i.val < 56 then f i else lengthByte m (i.val - 56)

/-- The buffered bytes, then 0x80, then zeros. -/
def paddedByte (m : Sha1Unit) (i : Fin 64) : Byte :=
  if i.val < m.nbuf.toNat then m.buf[i] else if i.val = m.nbuf.toNat then 0x80#8 else 0x00#8

/-! ### Which command writes what -/

/-- The commands that write the SHA-1 unit. -/
def writesSha : Instr → Bool
  | .coreReset | .shaInit | .shaAppend | .shaFinish | .n5Begin _ | .n5End _ => true
  | _ => false

/-- The commands that write the parser. -/
def writesParser : Instr → Bool
  | .coreReset | .pStart | .pChar => true
  | _ => false

/-- The destination register of a command, where it has one. -/
def destination : Instr → Option UReg
  | .uNil rd | .uMov rd _ | .uWr128 rd | .uWrb rd _ | .uWrf rd _ | .uLdns rd _ | .uGen4 rd | .n5End rd | .pEnd rd => some rd
  | _ => none

/-- The read commands of 20_memory.md R59. -/
def isRead : Instr → Bool
  | .shaRdw _ | .shaRdb _ | .shaRdhex _ | .shaStat | .uRd128 _ | .uRdb _ _ | .uRdf _ _ | .uVariant _ | .uVersion _ | .uEq _ _
  | .uCmp _ _ | .uFmtc _ _ | .pStat => true
  | _ => false

end Sys2Proof.Claims

open Sys2Proof.Claims

/-! ### Encoding -/

/-- Command words written out from the spec decode to the commands they stand for (30_encoding.md R73, R78; 95_test_vectors.md 2.6). -/
def Obligations.SpecWordsDecodeToTheirCommands : Prop :=
  ∀ p ∈ specWords, decode p.1 = .instr p.2

/-- Decoding the command word of any well-formed command gives that command back, with every operand at every value of its range. -/
def Obligations.DecodeOfEncodeGivesTheCommandBack : Prop :=
  ∀ i : Instr, i.wf = true → decode (encode i) = .instr i

/-- Each word has one meaning: a word that decodes is the command word of a well-formed command, no bit of it ignored. -/
def Obligations.EncodeOfDecodeGivesTheWordBack : Prop :=
  ∀ (w : Word) (i : Instr), decode w = .instr i → i.wf = true ∧ encode i = w

/-- R74, R75, R76, R232: every word either selects exactly one row of R73 and is executed as a command of that row's opcode, or
executes as IllegalCmd: status 1, RDATA 0, no state changed, and the next action is taken normally. -/
def Obligations.WordSelectsOneRowOrRaisesIllegalCmd : Prop :=
  Status.illegalCmd.code = 1 ∧
  (∀ w : Word, SpellsCommand w →
    (∃ r, (r ∈ usesTable ∧ r.Selects w) ∧ ∀ q, q ∈ usesTable ∧ q.Selects w → q = r) ∧
    ∃ i, decode w = .instr i ∧ i.wf = true ∧ i.opcode = w.extractLsb' 24 8) ∧
  ∀ (w : Word) (d : Ident) (rest : List HostAction) (s : State), ¬ SpellsCommand w →
    step { s with inbox := .command w d :: rest } =
      .next { s with inbox := rest, wdata := d, out := ⟨.illegalCmd, 0⟩ :: s.out }

/-- R75, R235: a command whose index is outside its range raises IllegalCmd whatever the state, in particular before `FIN` is looked at.
That an instruction term outside its range does so in `exec` is the model's choice (log 12). -/
def Obligations.IndexOutOfRangeRaisesIllegalCmd : Prop :=
  ∀ (i : Instr) (s : State), i.wf = false → Raises i s .illegalCmd

/-! ### Steps -/

/-- A step takes the host's next command, puts its data on the bus and executes what the word decodes to; the word that `withFetchWord`
places is the one executed, with zero data; with nothing pending the core keeps its state (the model's choice, log 1, 2). -/
def Obligations.StepExecutesTheDecodedCommand : Prop :=
  (∀ (w : Word) (i : Instr) (d : Ident) (rest : List HostAction) (s : State), decode w = .instr i →
    step { s with inbox := .command w d :: rest } = exec i { s with inbox := rest, wdata := d }) ∧
  (∀ (n : Nat) (i : Instr) (s : State), n < 2 ^ 32 → decodeTableWord 32 n = some i →
    step (s.withFetchWord 32 n) = exec i { s with wdata := 0 }) ∧
  ∀ s : State, s.inbox = [] → step s = .next s

/-- R39, R255: the state right after reset, the state after the reset input, the state after CORE.RESET and the state after SHA.INIT;
P.START; U.NIL U0 to U3 have the values of R39; the reset input gives no response. -/
def Obligations.ResetGivesTheResetValues : Prop :=
  AtReset State.reset ∧ (∀ s : State, ∃ t, exec .coreReset s = .next t ∧ AtReset t) ∧
  (∀ (s : State) (rest : List HostAction), ∃ t, step { s with inbox := .reset :: rest } = .next t ∧ AtReset t ∧
    t.cfg = s.cfg ∧ t.inbox = rest ∧ t.wdata = s.wdata ∧ t.out = s.out) ∧
  ∀ s : State, ∃ t, runAll [command .shaInit, command .pStart, command (.uNil 0), command (.uNil 1), command (.uNil 2),
    command (.uNil 3)] s = .next t ∧ AtReset t

/-- R240: CORE.RESET, in every state, gives every piece of state its reset value and responds 0; SHA.STAT, P.STAT and U.RD128 then
answer 0. -/
def Obligations.CoreResetGivesTheResetValues : Prop :=
  ∀ s : State, ∃ t, exec .coreReset s = .next t ∧ AtReset t ∧ t.cfg = s.cfg ∧ t.inbox = s.inbox ∧ t.wdata = s.wdata ∧
    t.out = ⟨.ok, 0⟩ :: s.out ∧ Answers .shaStat t 0 ∧ Answers .pStat t 0 ∧ ∀ r, Answers (.uRd128 r) t 0

/-- R264: every step answers a next state, whatever the state and whatever the host does; it takes one action and no more. -/
def Obligations.EveryStepCompletes : Prop :=
  ∀ s : State, ∃ t, step s = .next t ∧ t.inbox = s.inbox.tail

/-- R231, R233, R235: every command gives exactly one response. Its status is ILLEGAL_CMD exactly for a word that spells no command,
else NOT_FINISHED exactly for a digest read while `FIN = 0`, else OK; with a status other than OK, RDATA is 0 and no unit changes. -/
def Obligations.EveryCommandRespondsOnce : Prop :=
  Status.ok.code = 0 ∧ Status.illegalCmd.code = 1 ∧ Status.notFinished.code = 2 ∧
  ∀ (w : Word) (d : Ident) (rest : List HostAction) (s : State), ∃ t r,
    step { s with inbox := .command w d :: rest } = .next t ∧ t.out = r :: s.out ∧
    (r.status = .illegalCmd ↔ ¬ SpellsCommand w) ∧
    (r.status = .notFinished ↔
      SpellsCommand w ∧ w.extractLsb' 24 8 ∈ [0x13#8, 0x14#8, 0x15#8] ∧ s.sha.fin = false) ∧
    (r.status ≠ .ok → r.rdata = 0 ∧ t.sha = s.sha ∧ t.u = s.u ∧ t.parser = s.parser)

/-! ### The SHA-1 unit -/

/-- R105 to R111: `Compress` is 80 rounds of the round step over the expanded schedule, from the accumulators, then the word-wise
addition. The rules R106 to R110 are marked by the spec as general knowledge, not in its source (D28). -/
def Obligations.CompressionIsEightyRounds : Prop :=
  ∀ (hin : Vector Word 5) (b : Vector Byte 64) (w va vb vc vd ve : Nat → Word),
    (∀ t (ht : t < 16), w t = b[4 * t] ++ b[4 * t + 1] ++ b[4 * t + 2] ++ b[4 * t + 3]) →
    (∀ t, 16 ≤ t → t < 80 → w t = (w (t - 3) ^^^ w (t - 8) ^^^ w (t - 14) ^^^ w (t - 16)).rotateLeft 1) →
    va 0 = hin[0] → vb 0 = hin[1] → vc 0 = hin[2] → vd 0 = hin[3] → ve 0 = hin[4] →
    (∀ t < 80, va (t + 1) = (va t).rotateLeft 5 + fOf t (vb t) (vc t) (vd t) + ve t + kOf t + w t ∧
      vb (t + 1) = va t ∧ vc (t + 1) = (vb t).rotateLeft 30 ∧ vd (t + 1) = vc t ∧ ve (t + 1) = vd t) →
    compress hin b = #v[hin[0] + va 80, hin[1] + vb 80, hin[2] + vc 80, hin[3] + vd 80, hin[4] + ve 80]

/-- R116 with R101 to R104: whatever the state before, whatever the message and however it is split into chunks, SHA.INIT, the chunks
and SHA.FINISH leave the one-shot digest of the whole message in the accumulators, and five SHA.RDW read it. -/
def Obligations.StreamingHashIsTheOneShotDigest : Prop :=
  ∀ (s : State) (chunks : List (List Byte)), ∃ t t',
    runAll (command .shaInit :: ((chunks.map pseudoAppendN).flatten ++ [command .shaFinish])) s = .next t ∧
    t.sha.h = sha1Of chunks.flatten ∧ t.sha.fin = true ∧ t.u = s.u ∧ t.parser = s.parser ∧
    runAll pseudoValue t = .next t' ∧
    t'.out = ((sha1Of chunks.flatten).toList.map fun x => ⟨.ok, x.setWidth 128⟩).reverse ++ t.out

/-- R101: SHA.INIT in any state. The words of the IV are those of R106, marked by the spec as general knowledge, not in its source (D28). -/
def Obligations.ShaInitLoadsTheInitialValue : Prop :=
  ∀ s : State, ∃ t, exec .shaInit s = .next t ∧ TouchesOnlySha s t ∧
    t.sha = { h := #v[0x67452301#32, 0xEFCDAB89#32, 0x98BADCFE#32, 0x10325476#32, 0xC3D2E1F0#32], buf := s.sha.buf,
              nblk := 0, nbuf := 0, fin := false }

/-- R102, R104: SHA.APPEND does nothing while `FIN = 1`; else it buffers the low byte of WDATA at `NBUF`, and the 64th byte compresses the
block and empties the buffer. -/
def Obligations.AppendBuffersAByteOrCompressesABlock : Prop :=
  ∀ s : State, ∃ t, exec .shaAppend s = .next t ∧ TouchesOnlySha s t ∧
    (s.sha.fin = true → t.sha = s.sha) ∧
    (s.sha.fin = false →
      (∀ i : Fin 64, t.sha.buf[i] = if i.val = s.sha.nbuf.toNat then s.wdata.extractLsb' 0 8 else s.sha.buf[i]) ∧
      t.sha.fin = false ∧
      (s.sha.nbuf.toNat < 63 → t.sha.h = s.sha.h ∧ t.sha.nblk = s.sha.nblk ∧ t.sha.nbuf.toNat = s.sha.nbuf.toNat + 1) ∧
      (s.sha.nbuf.toNat = 63 →
        t.sha.h = compress s.sha.h t.sha.buf ∧ t.sha.nblk.toNat = (s.sha.nblk.toNat + 1) % 2 ^ 64 ∧ t.sha.nbuf = 0))

/-- R103: SHA.FINISH does nothing while `FIN = 1`; else it compresses one padded block when `NBUF <= 55` and two when `NBUF >= 56`, and
leaves `NBUF = 0`, `FIN = 1` and `NBLK` grown by their number. -/
def Obligations.FinishCompressesThePaddedBlocks : Prop :=
  ∀ s : State, ∃ t, exec .shaFinish s = .next t ∧ TouchesOnlySha s t ∧
    (s.sha.fin = true → t.sha = s.sha) ∧
    (s.sha.fin = false → t.sha.fin = true ∧ t.sha.nbuf = 0 ∧
      (s.sha.nbuf.toNat ≤ 55 →
        t.sha.h = compress s.sha.h (lastBlock s.sha (paddedByte s.sha)) ∧ t.sha.nblk = s.sha.nblk + 1) ∧
      (56 ≤ s.sha.nbuf.toNat →
        t.sha.h = compress (compress s.sha.h (Vector.ofFn (paddedByte s.sha))) (lastBlock s.sha fun _ => 0x00#8) ∧
        t.sha.nblk = s.sha.nblk + 2))

/-- R117: after one SHA.FINISH, any sequence of SHA.FINISH and SHA.APPEND leaves the SHA-1 unit as that one left it. -/
def Obligations.FinishIsIdempotent : Prop :=
  ∀ (s : State) (as : List HostAction),
    (∀ a ∈ as, a = command .shaFinish ∨ ∃ b, a = command .shaAppend b) →
    ∃ t t', runAll [command .shaFinish] s = .next t ∧ runAll (command .shaFinish :: as) s = .next t' ∧
      t'.sha = t.sha ∧ t'.u = s.u ∧ t'.parser = s.parser

/-- R26 (c) and R119: after SHA.INIT and `n` bytes, `NBLK` and `NBUF` count them, `NBLK` modulo 2^64. -/
def Obligations.CountersCountTheMessage : Prop :=
  ∀ (s : State) (msg : List Byte), ∃ t, runAll (command .shaInit :: pseudoAppendN msg) s = .next t ∧
    t.sha.nblk.toNat = msg.length / 64 % 2 ^ 64 ∧ t.sha.nbuf.toNat = msg.length % 64 ∧ t.sha.fin = false

/-- R112: SHA.RDW. -/
def Obligations.ReadWordAnswersADigestWord : Prop :=
  ∀ (s : State) (idx : Byte),
    (4 < idx.toNat → Raises (.shaRdw idx) s .illegalCmd) ∧
    (idx.toNat ≤ 4 → s.sha.fin = false → Raises (.shaRdw idx) s .notFinished) ∧
    (idx.toNat ≤ 4 → s.sha.fin = true →
      Answers (.shaRdw idx) s (((digest s.sha.h).extractLsb' (128 - 32 * idx.toNat) 32).setWidth 128))

/-- R113: SHA.RDB. -/
def Obligations.ReadByteAnswersADigestByte : Prop :=
  ∀ (s : State) (idx : Byte),
    (19 < idx.toNat → Raises (.shaRdb idx) s .illegalCmd) ∧
    (idx.toNat ≤ 19 → s.sha.fin = false → Raises (.shaRdb idx) s .notFinished) ∧
    (idx.toNat ≤ 19 → s.sha.fin = true →
      Answers (.shaRdb idx) s (((digest s.sha.h).extractLsb' (152 - 8 * idx.toNat) 8).setWidth 128))

/-- R114: SHA.RDHEX; the case is lower whatever `FMT_CASE` is. -/
def Obligations.ReadHexAnswersADigestCharacter : Prop :=
  ∀ (s : State) (idx : Byte),
    (39 < idx.toNat → Raises (.shaRdhex idx) s .illegalCmd) ∧
    (idx.toNat ≤ 39 → s.sha.fin = false → Raises (.shaRdhex idx) s .notFinished) ∧
    (idx.toNat ≤ 39 → s.sha.fin = true →
      Answers (.shaRdhex idx) s
        ((lowerDigits.getD ((digest s.sha.h).extractLsb' (156 - 4 * idx.toNat) 4).toNat 0).setWidth 128))

/-- R37, R115, R196: the two status words, field by field, with the codes of `PST`. -/
def Obligations.StatusWordsHaveTheirFields : Prop :=
  ParseState.initial.code = 0 ∧ ParseState.parsing.code = 1 ∧ ParseState.finished.code = 2 ∧ ParseState.error.code = 3 ∧
  ∀ s : State, ∃ v p, Answers .shaStat s v ∧ Answers .pStat s p ∧
    v.extractLsb' 0 1 = BitVec.ofBool s.sha.fin ∧ v.extractLsb' 1 7 = 0 ∧ v.extractLsb' 8 6 = s.sha.nbuf ∧
    v.extractLsb' 14 50 = 0 ∧ v.extractLsb' 64 64 = s.sha.nblk ∧
    p.extractLsb' 0 2 = s.parser.pst.code ∧ p.extractLsb' 2 2 = 0 ∧ p.extractLsb' 4 1 = BitVec.ofBool s.parser.pbo ∧
    p.extractLsb' 5 1 = BitVec.ofBool s.parser.pbc ∧ p.extractLsb' 6 2 = 0 ∧ p.extractLsb' 8 6 = s.parser.pdig ∧
    p.extractLsb' 14 114 = 0

/-- R25: `FIN` is set by SHA.FINISH and N5.END, cleared by SHA.INIT, N5.BEGIN and CORE.RESET, and written by no other command. -/
def Obligations.FinIsWrittenByFiveCommands : Prop :=
  ∀ (i : Instr) (s : State), ∃ t, exec i s = .next t ∧
    t.sha.fin = match i with
      | .shaFinish | .n5End _ => true
      | .shaInit | .n5Begin _ | .coreReset => false
      | _ => s.sha.fin

/-! ### The register file and the layout -/

/-- R141, R142, R143, R144: U.NIL, U.MOV and U.WR128 write exactly the destination, sources read first; U.RD128 answers the register. -/
def Obligations.WholeRegisterCommands : Prop :=
  ∀ (s : State) (rd rs : UReg),
    (∃ t, exec (.uNil rd) s = .next t ∧ WritesRegister s t rd 0 0) ∧
    (∃ t, exec (.uMov rd rs) s = .next t ∧ WritesRegister s t rd s.u[rs] 0) ∧
    (∃ t, exec (.uWr128 rd) s = .next t ∧ WritesRegister s t rd s.wdata 0) ∧
    Answers (.uRd128 rs) s s.u[rs]

/-- R145: U.WRB replaces one byte and leaves the other 15. -/
def Obligations.WriteByteReplacesOneByte : Prop :=
  ∀ (s : State) (rd : UReg) (idx : Byte),
    (15 < idx.toNat → Raises (.uWrb rd idx) s .illegalCmd) ∧
    (idx.toNat ≤ 15 → ∃ t v, exec (.uWrb rd idx) s = .next t ∧ WritesRegister s t rd v 0 ∧
      ∀ j < 16, byteAt v j = if j = idx.toNat then s.wdata.extractLsb' 0 8 else byteAt s.u[rd] j)

/-- R146: U.RDB. -/
def Obligations.ReadByteAnswersOneByte : Prop :=
  ∀ (s : State) (rs : UReg) (idx : Byte),
    (15 < idx.toNat → Raises (.uRdb rs idx) s .illegalCmd) ∧
    (idx.toNat ≤ 15 → Answers (.uRdb rs idx) s ((byteAt s.u[rs] idx.toNat).setWidth 128))

/-- R147, R148: the six fields tile the 128 bits, and U.WRF replaces the bits of one by the low bits of WDATA. -/
def Obligations.WriteFieldReplacesOneField : Prop :=
  (∀ k < 128, ∃ f, (f ∈ fieldTable ∧ f.2.1 ≤ k ∧ k < f.2.1 + f.2.2) ∧
    ∀ g, g ∈ fieldTable ∧ g.2.1 ≤ k ∧ k < g.2.1 + g.2.2 → g = f) ∧
  ∀ (s : State) (rd : UReg) (idx : Byte),
    (5 < idx.toNat → Raises (.uWrf rd idx) s .illegalCmd) ∧
    ∀ f ∈ fieldTable, idx.toNat = f.1 → ∃ t v, exec (.uWrf rd idx) s = .next t ∧ WritesRegister s t rd v 0 ∧
      ∀ k < 128, v.getLsbD k =
        if f.2.1 ≤ k ∧ k < f.2.1 + f.2.2 then s.wdata.getLsbD (k - f.2.1) else (s.u[rd]).getLsbD k

/-- R149: U.RDF answers the field, zero-extended. -/
def Obligations.ReadFieldAnswersOneField : Prop :=
  ∀ (s : State) (rs : UReg) (idx : Byte),
    (5 < idx.toNat → Raises (.uRdf rs idx) s .illegalCmd) ∧
    ∀ f ∈ fieldTable, idx.toNat = f.1 →
      Answers (.uRdf rs idx) s (((s.u[rs]).extractLsb' f.2.1 f.2.2).setWidth 128)

/-- R153: writing the 16 bytes of `v` in any order, or its six fields in any order, gives the register that U.WR128 of `v` gives. -/
def Obligations.PiecewiseWritesGiveTheWholeValue : Prop :=
  ∀ (s : State) (rd : UReg) (v : Ident),
    (∀ order : List Nat, order.Perm (List.range 16) → ∃ t,
      runAll (order.map fun i => command (.uWrb rd (BitVec.ofNat 8 i)) ((byteAt v i).setWidth 128)) s = .next t ∧
      ∀ r : UReg, t.u[r] = if r = rd then v else s.u[r]) ∧
    ∀ order : List (Nat × Nat × Nat), order.Perm fieldTable → ∃ t,
      runAll (order.map fun f => command (.uWrf rd (BitVec.ofNat 8 f.1)) ((v.extractLsb' f.2.1 f.2.2).setWidth 128)) s = .next t ∧
      ∀ r : UReg, t.u[r] = if r = rd then v else s.u[r]

/-- The variant code of the top three bits of byte 8, for all eight patterns (R150), and the version nibble (R151). The source fixes 000, 100
and 101; the codes of 001, 010, 011, 110 and 111 rest on what the spec marks as general knowledge, not in its source (D15, G8). -/
def Obligations.DerivedFieldsAreDecoded : Prop :=
  ∀ (s : State) (rs : UReg),
    Answers (.uVariant rs) s
      (BitVec.ofNat 128 (([0, 2, 2, 2, 1, 1, 3, 4] : List Nat).getD ((s.u[rs]).extractLsb' 61 3).toNat 0)) ∧
    Answers (.uVersion rs) s (((s.u[rs]).extractLsb' 76 4).setWidth 128)

/-- R152 with the values of R30, which the spec marks as general knowledge, not in its source (D17): U.LDNS loads the DNS, URL, ISO-OID
or X.500 constant. -/
def Obligations.LoadNamespaceWritesTheConstant : Prop :=
  ∀ (s : State) (rd : UReg) (idx : Byte),
    (3 < idx.toNat → Raises (.uLdns rd idx) s .illegalCmd) ∧
    ∀ p ∈ [(0, 0x6BA7B8109DAD11D180B400C04FD430C8#128), (1, 0x6BA7B8119DAD11D180B400C04FD430C8#128),
           (2, 0x6BA7B8129DAD11D180B400C04FD430C8#128), (3, 0x6BA7B8149DAD11D180B400C04FD430C8#128)],
      idx.toNat = p.1 → ∃ t, exec (.uLdns rd idx) s = .next t ∧ WritesRegister s t rd p.2 0

/-- R79, row U.PACK: the six values stand in the six fields. -/
def Obligations.PackPlacesTheSixFields : Prop :=
  ∀ (s : State) (rd : UReg) (tl : BitVec 32) (tm thv : BitVec 16) (csh csl : Byte) (node : BitVec 48), ∃ t,
    runAll (pseudoPack rd tl tm thv csh csl node) s = .next t ∧
    (t.u[rd]).extractLsb' 96 32 = tl ∧ (t.u[rd]).extractLsb' 80 16 = tm ∧ (t.u[rd]).extractLsb' 64 16 = thv ∧
    byteAt t.u[rd] 8 = csh ∧ byteAt t.u[rd] 9 = csl ∧ (t.u[rd]).extractLsb' 0 48 = node

/-- 30_encoding.md R78: its own examples of assembler lines, the last of them the line of P.CHAR with the opening brace, U+007B; then the
lines of 95_test_vectors.md P4 steps 16 and 25, whose index is past its range: they assemble, and the words are illegal. -/
def Obligations.AssemblerExamplesOfTheSpec : Prop :=
  Asm.assembleLine "SHA.APPEND #0x61".toList = some [.command 0x11000000#32 0x61#128] ∧
  Asm.assembleLine "U.WRB U1, 6, #0x50".toList = some [.command 0x24400006#32 0x50#128] ∧
  Asm.assembleLine "U.CMP U0, U3".toList = some [.command 0x2D0C0000#32 0#128] ∧
  Asm.assembleLine "U.LDNS U2, DNS".toList = some [.command 0x2A800000#32 0#128] ∧
  Asm.assembleLine ("P.CHAR #'".toList ++ [Char.ofNat 0x7B, '\'']) = some [.command 0x41000000#32 0x7B#128] ∧
  Asm.assembleLine "SHA.RDW 5".toList = some [.command 0x13000005#32 0#128] ∧
  Asm.assembleLine "U.FMTC U3, 36".toList = some [.command 0x2E300024#32 0#128]

/-! ### Generation -/

/-- R170, R171: U.GEN4 writes the stamped operand, for every operand; the result reports variant standard and version random. -/
def Obligations.RandomGenerationStampsItsOperand : Prop :=
  ∀ (s : State) (rd : UReg), ∃ t v, exec (.uGen4 rd) s = .next t ∧ WritesRegister s t rd v 0 ∧ Stamped s.wdata v 4 ∧
    Answers (.uVariant rd) t 1 ∧ Answers (.uVersion rd) t 4

/-- R172: N5.BEGIN initialises the hash and feeds the 16 bytes of the namespace. The words of the IV are those of R106, marked by the spec as
general knowledge, not in its source (D28). -/
def Obligations.NameBeginFeedsTheNamespace : Prop :=
  ∀ (s : State) (rs : UReg), ∃ t, exec (.n5Begin rs) s = .next t ∧ TouchesOnlySha s t ∧
    t.sha.h = #v[0x67452301#32, 0xEFCDAB89#32, 0x98BADCFE#32, 0x10325476#32, 0xC3D2E1F0#32] ∧
    t.sha.nblk = 0 ∧ t.sha.nbuf = 16 ∧ t.sha.fin = false ∧
    ∀ i : Fin 64, i.val < 16 → t.sha.buf[i] = byteAt s.u[rs] i.val

/-- R173, R175: N5.END leaves the SHA-1 unit as SHA.FINISH leaves it, and writes the stamped first 16 bytes of that digest. -/
def Obligations.NameEndStampsTheDigest : Prop :=
  ∀ (s : State) (rd : UReg), ∃ f t v, exec .shaFinish s = .next f ∧ exec (.n5End rd) s = .next t ∧ t.sha = f.sha ∧
    f.sha.fin = true ∧ Stamped ((digest f.sha.h).extractLsb' 32 128) v 5 ∧
    (∀ r : UReg, t.u[r] = if r = rd then v else s.u[r]) ∧ t.parser = s.parser ∧ t.cfg = s.cfg ∧ t.inbox = s.inbox ∧
    t.wdata = s.wdata ∧ t.draws = s.draws ∧ t.out = ⟨.ok, 0⟩ :: s.out

/-- R174: name-based generation is a function of the namespace identifier and the name alone: whatever the state before, U.GEN5 writes
the stamped first 16 bytes of the SHA-1 digest of the namespace's bytes followed by the name's. -/
def Obligations.NameBasedGenerationIsTheStampedDigest : Prop :=
  ∀ (s : State) (rd rs : UReg) (name : List Byte), ∃ t v, runAll (pseudoGen5 rd rs name) s = .next t ∧
    Stamped ((digest (sha1Of ((List.range 16).map (byteAt s.u[rs]) ++ name))).extractLsb' 32 128) v 5 ∧
    (∀ r : UReg, t.u[r] = if r = rd then v else s.u[r]) ∧ t.parser = s.parser

/-! ### The parser -/

/-- R188: every instance of `IsWs` keeps the constraints, every predicate that keeps them is an instance, and the default instance is
the six ASCII characters. -/
def Obligations.WhitespaceInstancesAreThoseOfTheSpec : Prop :=
  (∀ (cfg : Config) (c : Word), isWs cfg 0x20#32 = true ∧
    ((∃ v, HexDigit c v) ∨ c = 0x2D#32 ∨ c = 0x7B#32 ∨ c = 0x7D#32 → isWs cfg c = false)) ∧
  (∀ p : Word → Bool, p 0x20#32 = true →
    (∀ c, (∃ v, HexDigit c v) ∨ c = 0x2D#32 ∨ c = 0x7B#32 ∨ c = 0x7D#32 → p c = false) →
    ∃ cfg : Config, ∀ c, isWs cfg c = p c) ∧
  ∀ c : Word, isWs State.reset.cfg c = true ↔ c.toNat ∈ [0x09, 0x0A, 0x0B, 0x0C, 0x0D, 0x20]

/-- R187: the class of every code point. -/
def Obligations.CharacterClassesAreThoseOfTheSpec : Prop :=
  ∀ (cfg : Config) (c : Word),
    (∀ v, classify cfg c = .hex v ↔ HexDigit c v.toNat) ∧
    (classify cfg c = .hyphen ↔ c = 0x2D#32) ∧ (classify cfg c = .openBrace ↔ c = 0x7B#32) ∧
    (classify cfg c = .closeBrace ↔ c = 0x7D#32) ∧ (classify cfg c = .ws ↔ isWs cfg c = true) ∧
    (classify cfg c = .other ↔
      (∀ v, ¬ HexDigit c v) ∧ c ≠ 0x2D#32 ∧ c ≠ 0x7B#32 ∧ c ≠ 0x7D#32 ∧ isWs cfg c = false)

/-- R189: P.START in any state. -/
def Obligations.ParseStartClearsTheParser : Prop :=
  ∀ s : State, ∃ t, exec .pStart s = .next t ∧ TouchesOnlyParser s t ∧
    t.parser.pst = .initial ∧ t.parser.pdig = 0 ∧ t.parser.pbo = false ∧ t.parser.pbc = false ∧ ∀ i : Fin 16, t.parser.pbuf[i] = 0

/-- R191: P.CHAR in INITIAL, for every code point. -/
def Obligations.CharacterStepInInitial : Prop :=
  ∀ s : State, s.parser.pst = .initial → ∃ t, exec .pChar s = .next t ∧ TouchesOnlyParser s t ∧
    (isWs s.cfg (s.wdata.extractLsb' 0 32) = true → t.parser = s.parser) ∧
    (s.wdata.extractLsb' 0 32 = 0x7B#32 →
      t.parser = if s.parser.pbo then { s.parser with pst := .error } else { s.parser with pbo := true }) ∧
    (∀ v, HexDigit (s.wdata.extractLsb' 0 32) v →
      t.parser.pst = .parsing ∧ t.parser.pdig = 1 ∧ t.parser.pbo = s.parser.pbo ∧ t.parser.pbc = s.parser.pbc ∧
      ∀ k < 32, (bufferDigit t.parser.pbuf k).toNat = if k = 0 then v else (bufferDigit s.parser.pbuf k).toNat) ∧
    (isWs s.cfg (s.wdata.extractLsb' 0 32) = false → s.wdata.extractLsb' 0 32 ≠ 0x7B#32 →
      (∀ v, ¬ HexDigit (s.wdata.extractLsb' 0 32) v) → t.parser = { s.parser with pst := .error })

/-- R192: P.CHAR in PARSING, for every code point. The premise is the invariant of the parser: 1 to 31 digits were consumed. -/
def Obligations.CharacterStepInParsing : Prop :=
  ∀ s : State, s.parser.pst = .parsing → s.parser.Inv → ∃ t, exec .pChar s = .next t ∧ TouchesOnlyParser s t ∧
    (∀ v, HexDigit (s.wdata.extractLsb' 0 32) v →
      t.parser.pst = (if s.parser.pdig.toNat = 31 then .finished else .parsing) ∧
      t.parser.pdig.toNat = s.parser.pdig.toNat + 1 ∧ t.parser.pbo = s.parser.pbo ∧ t.parser.pbc = s.parser.pbc ∧
      ∀ k < 32, (bufferDigit t.parser.pbuf k).toNat = if k = s.parser.pdig.toNat then v else (bufferDigit s.parser.pbuf k).toNat) ∧
    (isWs s.cfg (s.wdata.extractLsb' 0 32) = true ∨ s.wdata.extractLsb' 0 32 = 0x2D#32 →
      t.parser = if s.parser.pdig.toNat % 2 = 0 then s.parser else { s.parser with pst := .error }) ∧
    (isWs s.cfg (s.wdata.extractLsb' 0 32) = false → s.wdata.extractLsb' 0 32 ≠ 0x2D#32 →
      (∀ v, ¬ HexDigit (s.wdata.extractLsb' 0 32) v) → t.parser = { s.parser with pst := .error })

/-- R193: P.CHAR in FINISHED, for every code point. -/
def Obligations.CharacterStepInFinished : Prop :=
  ∀ s : State, s.parser.pst = .finished → ∃ t, exec .pChar s = .next t ∧ TouchesOnlyParser s t ∧
    (isWs s.cfg (s.wdata.extractLsb' 0 32) = true → t.parser = s.parser) ∧
    (s.wdata.extractLsb' 0 32 = 0x7D#32 →
      t.parser = if s.parser.pbo = true ∧ s.parser.pbc = false then { s.parser with pbc := true }
        else { s.parser with pst := .error }) ∧
    (isWs s.cfg (s.wdata.extractLsb' 0 32) = false → s.wdata.extractLsb' 0 32 ≠ 0x7D#32 →
      t.parser = { s.parser with pst := .error })

/-- R194: in ERROR no sequence of P.CHAR changes the parser, and of all commands only P.START and CORE.RESET leave ERROR; so does the
reset input. -/
def Obligations.ErrorIsTerminalForTheParse : Prop :=
  (∀ (s : State) (cs : List Word), s.parser.pst = .error → ∃ t, runAll (parseChars cs) s = .next t ∧
    t.parser = s.parser ∧ t.u = s.u ∧ t.sha = s.sha) ∧
  (∀ (i : Instr) (s : State), s.parser.pst = .error → ∃ t, exec i s = .next t ∧
    (t.parser.pst = .error ↔ i ≠ .pStart ∧ i ≠ .coreReset)) ∧
  ∀ (s : State) (rest : List HostAction), ∃ t, step { s with inbox := .reset :: rest } = .next t ∧ t.parser.pst ≠ .error

/-- R195: P.END writes the 16 bytes of the buffer and answers 1 when the parse ended in FINISHED with balanced braces; else it answers 0
and writes nothing. It changes no parser state. -/
def Obligations.ParseEndDeliversTheValue : Prop :=
  ∀ (s : State) (rd : UReg),
    (s.parser.pst = .finished ∧ s.parser.pbo = s.parser.pbc → ∃ t v, exec (.pEnd rd) s = .next t ∧ WritesRegister s t rd v 1 ∧
      ∀ i : Fin 16, byteAt v i.val = s.parser.pbuf[i]) ∧
    (¬ (s.parser.pst = .finished ∧ s.parser.pbo = s.parser.pbc) → Answers (.pEnd rd) s 0)

/-- R198, R199: U.PARSE succeeds exactly on the texts of the accepted dialects, whatever the state before, and writes the value they
spell; on every other text it answers 0 and writes no register. -/
def Obligations.ParserAcceptsExactlyTheDialects : Prop :=
  ∀ (s : State) (rd : UReg) (cs : List Word), ∃ t, runAll (pseudoParse rd cs) s = .next t ∧ t.sha = s.sha ∧
    (∀ bytes, Spells s.cfg bytes cs → t.out.head? = some ⟨.ok, 1⟩ ∧
      (∀ r : UReg, r ≠ rd → t.u[r] = s.u[r]) ∧ ∀ i < 16, byteAt t.u[rd] i = bytes.getD i 0) ∧
    ((¬ ∃ bytes, Spells s.cfg bytes cs) → t.out.head? = some ⟨.ok, 0⟩ ∧ t.u = s.u)

/-- R219: the 36 characters that U.FMT answers for a register, in either case, parse to the value of that register, in any state of the
parsing core and for every instance of `IsWs`. -/
def Obligations.ParseOfFormatIsTheIdentity : Prop :=
  ∀ (s q : State) (rs rd : UReg), ∃ (text : List Byte) (t t' : State), text.length = 36 ∧
    runAll (pseudoFmt rs) s = .next t ∧ t.out = (text.map fun c => ⟨.ok, c.setWidth 128⟩).reverse ++ s.out ∧ t.u = s.u ∧
    runAll (pseudoParse rd (text.map fun c => c.setWidth 32)) q = .next t' ∧
    t'.out.head? = some ⟨.ok, 1⟩ ∧ t'.u[rd] = s.u[rs]

/-! ### Order and format -/

/-- R215: U.EQ answers 1 exactly when all 16 bytes match, else 0. -/
def Obligations.EqualityComparesAllBytes : Prop :=
  ∀ (s : State) (rs rt : UReg), ∃ v, Answers (.uEq rs rt) s v ∧
    ((∀ i < 16, byteAt s.u[rs] i = byteAt s.u[rt] i) → v = 1) ∧
    (∀ i < 16, byteAt s.u[rs] i ≠ byteAt s.u[rt] i → v = 0)

/-- R216: U.CMP is the lexicographic comparison of the bytes, byte 0 first: all ones, 0 or 1 for less, equal or greater. -/
def Obligations.ComparisonIsLexicographic : Prop :=
  ∀ (s : State) (rs rt : UReg), ∃ v, Answers (.uCmp rs rt) s v ∧
    ((∀ i < 16, byteAt s.u[rs] i = byteAt s.u[rt] i) → v = 0) ∧
    (∀ i < 16, (∀ j < i, byteAt s.u[rs] j = byteAt s.u[rt] j) →
      ((byteAt s.u[rs] i).toNat < (byteAt s.u[rt] i).toNat → v = BitVec.allOnes 128) ∧
      ((byteAt s.u[rt] i).toNat < (byteAt s.u[rs] i).toNat → v = 1))

/-- R217: the answers of U.CMP, read as signed numbers, are those of a total order whose equality is U.EQ. -/
def Obligations.ComparisonIsATotalOrder : Prop :=
  ∀ (s : State) (ra rb rc : UReg), ∃ aa ab ba bc ac e,
    Answers (.uCmp ra ra) s aa ∧ Answers (.uCmp ra rb) s ab ∧ Answers (.uCmp rb ra) s ba ∧ Answers (.uCmp rb rc) s bc ∧
    Answers (.uCmp ra rc) s ac ∧ Answers (.uEq ra rb) s e ∧
    aa = 0 ∧ ab.toInt = - ba.toInt ∧ (ab.toInt ≤ 0 → bc.toInt ≤ 0 → ac.toInt ≤ 0) ∧ (ab = 0 ↔ e = 1)

/-- R218: U.FMTC answers a hyphen at the four positions between the groups, and digit `n` of the identifier at the `n`-th of the other
32 positions, in the case `FMT_CASE`. -/
def Obligations.FormatAnswersTheCanonicalText : Prop :=
  ∀ (s : State) (rs : UReg) (idx : Byte),
    (35 < idx.toNat → Raises (.uFmtc rs idx) s .illegalCmd) ∧
    (idx.toNat ∈ [8, 13, 18, 23] → Answers (.uFmtc rs idx) s 0x2D#128) ∧
    ∀ n < 32, digitPositions[n]? = some idx.toNat →
      Answers (.uFmtc rs idx) s
        (((digitsOf s.cfg.fmtCase).getD ((s.u[rs]).extractLsb' (124 - 4 * n) 4).toNat 0).setWidth 128)

/-! ### The whole machine -/

/-- R59: no read command has a side effect: each gives one response and changes nothing else. -/
def Obligations.ReadCommandsChangeNoState : Prop :=
  ∀ (i : Instr) (s : State), isRead i = true → ∃ r, exec i s = .next { s with out := r :: s.out }

/-- The frame of every command (R21, R25, R28, R34, and the families' own words): the SHA-1 unit, the parser and the registers change only
under the commands that write them, and there only the destination; the parameters, the pending actions and the bus never. -/
def Obligations.CommandsTouchOnlyWhatTheyWrite : Prop :=
  ∀ (i : Instr) (s : State), ∃ t, exec i s = .next t ∧
    (writesSha i = false → t.sha = s.sha) ∧ (writesParser i = false → t.parser = s.parser) ∧
    (i ≠ .coreReset → t.draws = s.draws ∧ ∀ r : UReg, destination i ≠ some r → t.u[r] = s.u[r]) ∧
    t.cfg = s.cfg ∧ t.inbox = s.inbox ∧ t.wdata = s.wdata ∧ ∃ r, t.out = r :: s.out

/-- R24, R26, R32, R33, R34: every step from a state that meets the invariant gives a state that meets it: a finished unit buffers
nothing; the digit count fits the parser state; a closing brace was accepted only after an opening one and 32 digits; the digits not
yet consumed are zero. -/
def Obligations.EveryStepKeepsTheInvariant : Prop :=
  ∀ s t : State, s.Inv → step s = .next t → t.Inv

/-- The state right after reset meets the invariant. -/
def Obligations.ResetMeetsTheInvariant : Prop := State.reset.Inv

/-- R22: the bytes of `BUF` from `NBUF` on are never observable: two states that differ only there (and in how often free contents were
drawn) take steps to two states that differ only there, with the same responses, whatever the host does. -/
def Obligations.BufferBeyondTheCountIsUnobservable : Prop :=
  ∀ s t : State, s.SameVisible t → ∃ s' t', step s = .next s' ∧ step t = .next t' ∧ s'.SameVisible t'

/-- R20: the responses are outputs: no step reads the earlier ones, and no command sees what an earlier one left on the bus. -/
def Obligations.ResponsesAreNeverRead : Prop :=
  (∀ (s : State) (o : List Response), ∃ t new, step s = .next t ∧ t.out = new ++ s.out ∧
    step { s with out := o } = .next { t with out := new ++ o }) ∧
  ∀ (s : State) (w : Word) (d x : Ident) (rest : List HostAction),
    step { s with inbox := .command w d :: rest, wdata := x } = step { s with inbox := .command w d :: rest }

/-- R38: the parameters `IsWs` and `FMT_CASE` are fixed for the life of a core: no run changes them. -/
def Obligations.ParametersAreFixed : Prop :=
  ∀ (n : Nat) (s : State), ∃ t, Sys2Proof.core.run n s = .next t ∧ t.cfg = s.cfg
end

