-- ==== Sys2Proof/Laws/Datapath.lean ====
section
/-! SUPPORT. What the append path and the padding do (40_sha1.md R103, R104), and what a unit that received a message holds. -/

namespace Sys2Proof.Machine

/-! ### One byte (R104) -/

theorem appendRaw_below (m : Sha1Unit) (b : Byte) (h : m.nbuf ≠ 63) :
    appendRaw m b = { m with buf := m.buf.set m.nbuf.toNat b, nbuf := m.nbuf + 1 } := by
  rw [appendRaw, if_neg h]

theorem appendRaw_full (m : Sha1Unit) (b : Byte) (h : m.nbuf = 63) :
    appendRaw m b =
      { m with h := compress m.h (m.buf.set m.nbuf.toNat b), buf := m.buf.set m.nbuf.toNat b, nblk := m.nblk + 1, nbuf := 0 } := by
  rw [appendRaw, if_pos h]

@[simp] theorem appendRaw_fin (m : Sha1Unit) (b : Byte) : (appendRaw m b).fin = m.fin := by
  by_cases h : m.nbuf = 63
  · rw [appendRaw_full m b h]
  · rw [appendRaw_below m b h]

/-- `NBUF` after one byte: one more, modulo 64. -/
theorem appendRaw_nbuf (m : Sha1Unit) (b : Byte) : (appendRaw m b).nbuf.toNat = (m.nbuf.toNat + 1) % 64 := by
  by_cases h : m.nbuf = 63
  · rw [appendRaw_full m b h]; simp [h]
  · rw [appendRaw_below m b h]; exact BitVec.toNat_add ..

/-! ### Many bytes -/

@[simp] theorem appendAll_nil (m : Sha1Unit) : appendAll m [] = m := rfl
@[simp] theorem appendAll_cons (m : Sha1Unit) (b : Byte) (bs : List Byte) :
    appendAll m (b :: bs) = appendAll (appendRaw m b) bs := rfl

theorem appendAll_append (m : Sha1Unit) (xs ys : List Byte) :
    appendAll m (xs ++ ys) = appendAll (appendAll m xs) ys := List.foldl_append ..

@[simp] theorem appendAll_fin (m : Sha1Unit) (bs : List Byte) : (appendAll m bs).fin = m.fin := by
  induction bs generalizing m with
  | nil => rfl
  | cons b bs ih => simp [ih]

theorem appendAll_nbuf (m : Sha1Unit) (bs : List Byte) :
    (appendAll m bs).nbuf.toNat = (m.nbuf.toNat + bs.length) % 64 := by
  induction bs generalizing m with
  | nil => simp only [appendAll_nil, List.length_nil]; have := m.nbuf.isLt; omega
  | cons b bs ih => simp only [appendAll_cons, ih, appendRaw_nbuf, List.length_cons]; omega

/-! ### Padding (R103) -/

/-- The loop of R103 appends the zeros that are missing to 56. -/
theorem padZeros_eq (fuel : Nat) (m : Sha1Unit) (h : (120 - m.nbuf.toNat) % 64 ≤ fuel) :
    padZeros fuel m = appendAll m (List.replicate ((120 - m.nbuf.toNat) % 64) 0x00#8) := by
  induction fuel generalizing m with
  | zero => rw [show (120 - m.nbuf.toNat) % 64 = 0 by omega]; rfl
  | succ fuel ih =>
    have hlt := m.nbuf.isLt
    by_cases h56 : m.nbuf = 56
    · rw [padZeros, if_pos h56, h56]; rfl
    · have hne : m.nbuf.toNat ≠ 56 := fun e => h56 (BitVec.eq_of_toNat_eq e)
      have hn := appendRaw_nbuf m 0x00#8
      rw [padZeros, if_neg h56, ih _ (by omega),
        show (120 - m.nbuf.toNat) % 64 = (120 - (appendRaw m 0x00#8).nbuf.toNat) % 64 + 1 by omega]
      rfl

@[simp] theorem lengthBytes_length (l : BitVec 64) : (lengthBytes l).length = 8 := by simp [lengthBytes]

/-- The bytes SHA.FINISH appends to a unit: 0x80, the zeros, the bit length. -/
def finishBytes (m : Sha1Unit) : List Byte :=
  0x80#8 :: (List.replicate ((119 - m.nbuf.toNat) % 64) 0x00#8 ++ lengthBytes (bitLength m))

theorem finishUnit_of_fin (m : Sha1Unit) (h : m.fin = true) : finishUnit m = m := by simp [finishUnit, h]

theorem finishUnit_eq (m : Sha1Unit) (h : m.fin = false) :
    finishUnit m = { appendAll m (finishBytes m) with fin := true } := by
  have hn := appendRaw_nbuf m 0x80#8
  have hlt := m.nbuf.isLt
  rw [finishUnit, if_neg (by simp [h]), padZeros_eq _ _ (by omega), finishBytes, appendAll_cons, appendAll_append,
    show (120 - (appendRaw m 0x80#8).nbuf.toNat) % 64 = (119 - m.nbuf.toNat) % 64 by omega]

@[simp] theorem finishUnit_fin (m : Sha1Unit) : (finishUnit m).fin = true := by
  cases h : m.fin
  · rw [finishUnit_eq m h]
  · rw [finishUnit_of_fin m h, h]

/-! ### What a unit holds of the message it received -/

/-- The unit received exactly `msg` since a block boundary at which its accumulators were `h0` and its block count `k0`: whole blocks
compressed, the rest buffered. -/
structure Sha1Unit.Holds (m : Sha1Unit) (h0 : Vector Word 5) (k0 : BitVec 64) (msg : List Byte) : Prop where
  h : m.h = (List.range (msg.length / 64)).foldl (fun h j => compress h (messageBlock msg j)) h0
  nblk : m.nblk = k0 + BitVec.ofNat 64 (msg.length / 64)
  nbuf : m.nbuf.toNat = msg.length % 64
  buf : ∀ i : Fin 64, i.val < msg.length % 64 → m.buf[i] = msg.getD (64 * (msg.length / 64) + i.val) 0

/-- After the IV load a unit holds the empty message. -/
theorem loadIv_holds (m : Sha1Unit) : (loadIv m).Holds iv 0 [] := by
  constructor <;> simp [loadIv]

/-- The bytes that stand in the buffer. -/
def bufferedBytes (m : Sha1Unit) : List Byte := m.buf.toList.take m.nbuf.toNat

theorem bufferedBytes_length (m : Sha1Unit) : (bufferedBytes m).length = m.nbuf.toNat := by
  have := m.nbuf.isLt
  simp [bufferedBytes]
  omega

/-- Every unit holds its buffered bytes since the last block boundary. -/
theorem holds_bufferedBytes (m : Sha1Unit) : m.Holds m.h m.nblk (bufferedBytes m) := by
  have hlt := m.nbuf.isLt
  have hlen := bufferedBytes_length m
  have hdiv : (bufferedBytes m).length / 64 = 0 := by omega
  constructor
  · rw [hdiv]; rfl
  · rw [hdiv]; simp
  · omega
  · intro i hi
    rw [hdiv]
    have hi' : i.val < m.nbuf.toNat := by omega
    simp [bufferedBytes, List.getD_eq_getElem?_getD, hi', i.isLt]

/-- A block that lies inside `xs` is the same block of `xs ++ ys`. -/
theorem messageBlock_append (xs ys : List Byte) (j : Nat) (h : 64 * j + 64 ≤ xs.length) :
    messageBlock (xs ++ ys) j = messageBlock xs j := by
  apply Vector.ext
  intro i hi
  simp only [messageBlock, Vector.getElem_ofFn, List.getD_eq_getElem?_getD]
  rw [List.getElem?_append_left (by omega)]

/-- Folding over the blocks inside `xs` does not see what follows. -/
theorem foldl_messageBlock_append (F : Vector Word 5 → Vector Byte 64 → Vector Word 5) (xs ys : List Byte) (n : Nat)
    (h0 : Vector Word 5) (h : 64 * n ≤ xs.length) :
    (List.range n).foldl (fun h j => F h (messageBlock (xs ++ ys) j)) h0 =
      (List.range n).foldl (fun h j => F h (messageBlock xs j)) h0 := by
  apply List.foldl_ext
  intro g j hj
  have hj' : j < n := List.mem_range.1 hj
  rw [messageBlock_append _ _ _ (by omega)]

/-- One more byte (R104). -/
theorem appendRaw_holds (m : Sha1Unit) (h0 : Vector Word 5) (k0 : BitVec 64) (msg : List Byte) (b : Byte) (hm : m.Holds h0 k0 msg) :
    (appendRaw m b).Holds h0 k0 (msg ++ [b]) := by
  have hlen : (msg ++ [b]).length = msg.length + 1 := by simp
  have hget : ∀ i : Fin 64, i.val ≤ msg.length % 64 →
      (m.buf.set m.nbuf.toNat b)[i] = (msg ++ [b]).getD (64 * (msg.length / 64) + i.val) 0 := by
    intro i hi
    simp only [List.getD_eq_getElem?_getD]
    by_cases he : i.val = msg.length % 64
    · rw [List.getElem?_append_right (by omega), show 64 * (msg.length / 64) + i.val - msg.length = 0 by omega]
      have : m.nbuf.toNat = i.val := by rw [hm.nbuf]; omega
      simp [this]
    · rw [List.getElem?_append_left (by omega), ← List.getD_eq_getElem?_getD, ← hm.buf i (by omega)]
      exact Vector.getElem_set_ne _ _ (by rw [hm.nbuf]; omega)
  by_cases h : m.nbuf = 63
  · have h63 : msg.length % 64 = 63 := by rw [← hm.nbuf, h]; rfl
    have hdiv : (msg.length + 1) / 64 = msg.length / 64 + 1 := by omega
    have hmod : (msg.length + 1) % 64 = 0 := by omega
    have hblk : m.buf.set m.nbuf.toNat b = messageBlock (msg ++ [b]) (msg.length / 64) := by
      apply Vector.ext
      intro i hi
      rw [messageBlock, Vector.getElem_ofFn]
      exact hget ⟨i, hi⟩ (by show i ≤ _; omega)
    rw [appendRaw_full m b h]
    constructor
    · show compress m.h (m.buf.set m.nbuf.toNat b) = _
      rw [hlen, hdiv, List.range_succ, List.foldl_append, foldl_messageBlock_append compress _ _ _ _ (by omega), ← hm.h, hblk]
      rfl
    · show m.nblk + 1 = _
      rw [hlen, hdiv, hm.nblk, BitVec.ofNat_add, BitVec.add_assoc]; rfl
    · show (0 : BitVec 6).toNat = _
      rw [hlen, hmod]; rfl
    · intro i hi
      rw [hlen, hmod] at hi
      omega
  · have hlt := m.nbuf.isLt
    have hne : m.nbuf.toNat ≠ 63 := fun e => h (BitVec.eq_of_toNat_eq e)
    have hmod := hm.nbuf
    have hdiv : (msg.length + 1) / 64 = msg.length / 64 := by omega
    have hmod' : (msg.length + 1) % 64 = msg.length % 64 + 1 := by omega
    have hn := appendRaw_nbuf m b
    rw [appendRaw_below m b h] at hn ⊢
    constructor
    · show m.h = _
      rw [hlen, hdiv, foldl_messageBlock_append compress _ _ _ _ (by omega), hm.h]
    · show m.nblk = _
      rw [hlen, hdiv, hm.nblk]
    · rw [hn, hlen]; omega
    · intro i hi
      rw [hlen, hmod'] at hi
      rw [hlen, hdiv]
      exact hget i (by omega)

/-- Many more bytes. -/
theorem appendAll_holds (m : Sha1Unit) (h0 : Vector Word 5) (k0 : BitVec 64) (msg bs : List Byte) (hm : m.Holds h0 k0 msg) :
    (appendAll m bs).Holds h0 k0 (msg ++ bs) := by
  induction bs generalizing m msg with
  | nil => simpa using hm
  | cons b bs ih => simpa using ih _ _ (appendRaw_holds m h0 k0 msg b hm)

/-- The bytes SHA.FINISH appends are the padding of the message received. -/
theorem finishBytes_of_holds (m : Sha1Unit) (h0 : Vector Word 5) (msg : List Byte) (hm : m.Holds h0 0 msg) :
    finishBytes m = messagePadding msg.length := by
  have hl : bitLength m = BitVec.ofNat 64 (msg.length * 8) := by
    apply BitVec.eq_of_toNat_eq
    have hk : m.nblk = BitVec.ofNat 64 (msg.length / 64) := hm.nblk.trans (BitVec.zero_add _)
    simp only [bitLength, hm.nbuf, hk, BitVec.toNat_ofNat]
    omega
  have hb : ∀ i ∈ List.range 8, ((BitVec.ofNat 64 (msg.length * 8)) >>> (56 - 8 * i)).setWidth 8 =
      BitVec.ofNat 8 (msg.length * 8 / 2 ^ (56 - 8 * i)) := by
    intro i hi
    apply BitVec.eq_of_getLsbD_eq
    intro k hk
    have hi8 : i < 8 := List.mem_range.1 hi
    simp only [BitVec.getLsbD_setWidth, BitVec.getLsbD_ushiftRight, BitVec.getLsbD_ofNat, Nat.testBit_div_two_pow, hk, decide_true,
      Bool.true_and]
    rw [decide_eq_true (by omega), Bool.true_and, Nat.add_comm]
  rw [finishBytes, messagePadding, hm.nbuf, lengthBytes, hl, List.map_congr_left hb]

end Sys2Proof.Machine
end

