-- ==== Sys2Proof/Laws/Decode.lean ====
section
/-! SUPPORT. The fields of a command word (30_encoding.md R71), and what its bits are. -/

namespace Sys2Proof

/-- Bit `k` of a register number placed at bit `lo`. -/
theorem regField_getLsbD (r : UReg) (lo k : Nat) (hk : k < 32) :
    ((BitVec.ofNat 32 r.val) <<< lo).getLsbD k = (decide (lo ≤ k ∧ k < lo + 2) && r.val.testBit (k - lo)) := by
  have hr := r.isLt
  rw [BitVec.getLsbD_shiftLeft, BitVec.getLsbD_ofNat]
  by_cases h1 : lo ≤ k
  · by_cases h2 : k < lo + 2
    · simp [hk, h1, h2, show ¬ k < lo by omega, show k - lo < 32 by omega]
    · have ht : r.val.testBit (k - lo) = false :=
        Nat.testBit_lt_two_pow (Nat.lt_of_lt_of_le hr (Nat.pow_le_pow_right (n := 2) (by decide) (show 2 ≤ k - lo by omega)))
      simp [h2, ht]
  · simp [h1, show k < lo by omega]

/-- Every bit of a command word is a bit of exactly one field, and bits 17 to 8 are zero (R71, R74). -/
theorem commandWord_getLsbD (op : Byte) (rd rs rt : UReg) (idx : Byte) (k : Nat) (hk : k < 32) :
    (commandWord op rd rs rt idx).getLsbD k =
      if 24 ≤ k then op.getLsbD (k - 24)
      else if 22 ≤ k then rd.val.testBit (k - 22)
      else if 20 ≤ k then rs.val.testBit (k - 20)
      else if 18 ≤ k then rt.val.testBit (k - 18)
      else idx.getLsbD k := by
  simp only [commandWord, BitVec.getLsbD_or, regField_getLsbD _ _ _ hk]
  rw [BitVec.getLsbD_shiftLeft, BitVec.getLsbD_setWidth, BitVec.getLsbD_setWidth]
  by_cases h24 : 24 ≤ k
  · rw [if_pos h24, BitVec.getLsbD_of_ge idx k (by omega)]
    simp [hk, show ¬ k < 24 by omega, show ¬ k < 20 by omega, show ¬ k < 22 by omega, show k - 24 < 32 by omega]
  · rw [if_neg h24]
    by_cases h22 : 22 ≤ k
    · rw [if_pos h22, BitVec.getLsbD_of_ge idx k (by omega)]
      simp [hk, h22, show k < 24 by omega, show ¬ k < 20 by omega, show ¬ k < 22 by omega]
    · rw [if_neg h22]
      by_cases h20 : 20 ≤ k
      · rw [if_pos h20, BitVec.getLsbD_of_ge idx k (by omega)]
        simp [hk, h20, show k < 24 by omega, h22, show k < 22 by omega, show ¬ k < 20 by omega]
      · rw [if_neg h20]
        by_cases h18 : 18 ≤ k
        · rw [if_pos h18, BitVec.getLsbD_of_ge idx k (by omega)]
          simp [hk, h18, show k < 24 by omega, h22, h20, show k < 20 by omega]
        · rw [if_neg h18]
          simp [hk, show k < 24 by omega, h22, h20, h18]

/-- A register field of a word whose two bits are those of `r`. -/
theorem toFin_extract_eq (w : Word) (lo : Nat) (r : UReg) (h : ∀ j < 2, w.getLsbD (lo + j) = r.val.testBit j) :
    ((w.extractLsb' lo 2).toFin : UReg) = r := by
  have : w.extractLsb' lo 2 = BitVec.ofNat 2 r.val := by
    apply BitVec.eq_of_getLsbD_eq
    intro j hj
    rw [BitVec.getLsbD_extractLsb', BitVec.getLsbD_ofNat, h j hj]
  rw [this]
  apply Fin.ext
  show r.val % 4 = r.val
  omega

@[simp] theorem opField_commandWord (op : Byte) (rd rs rt : UReg) (idx : Byte) :
    opField (commandWord op rd rs rt idx) = op := by
  apply BitVec.eq_of_getLsbD_eq
  intro k hk
  rw [opField, BitVec.getLsbD_extractLsb', commandWord_getLsbD _ _ _ _ _ _ (by omega), if_pos (by omega)]
  simp [hk]

@[simp] theorem rdField_commandWord (op : Byte) (rd rs rt : UReg) (idx : Byte) :
    rdField (commandWord op rd rs rt idx) = rd := by
  apply toFin_extract_eq
  intro j hj
  rw [commandWord_getLsbD _ _ _ _ _ _ (by omega), if_neg (by omega), if_pos (by omega), Nat.add_sub_cancel_left]

@[simp] theorem rsField_commandWord (op : Byte) (rd rs rt : UReg) (idx : Byte) :
    rsField (commandWord op rd rs rt idx) = rs := by
  apply toFin_extract_eq
  intro j hj
  rw [commandWord_getLsbD _ _ _ _ _ _ (by omega), if_neg (by omega), if_neg (by omega), if_pos (by omega), Nat.add_sub_cancel_left]

@[simp] theorem rtField_commandWord (op : Byte) (rd rs rt : UReg) (idx : Byte) :
    rtField (commandWord op rd rs rt idx) = rt := by
  apply toFin_extract_eq
  intro j hj
  rw [commandWord_getLsbD _ _ _ _ _ _ (by omega), if_neg (by omega), if_neg (by omega), if_neg (by omega), if_pos (by omega),
    Nat.add_sub_cancel_left]

@[simp] theorem idxField_commandWord (op : Byte) (rd rs rt : UReg) (idx : Byte) :
    idxField (commandWord op rd rs rt idx) = idx := by
  apply BitVec.eq_of_getLsbD_eq
  intro k hk
  rw [idxField, BitVec.getLsbD_extractLsb', commandWord_getLsbD _ _ _ _ _ _ (by omega), if_neg (by omega), if_neg (by omega),
    if_neg (by omega), if_neg (by omega), Nat.zero_add, decide_eq_true hk, Bool.true_and]

end Sys2Proof
end

