-- ==== Sys2Proof/Laws/Operands.lean ====
section
/-! SUPPORT. What the operand forms of Machine/Operands.lean do, bit by bit and byte by byte. -/

namespace Sys2Proof.Machine

/-! ### Slices -/

theorem lowMask_getLsbD (w k : Nat) (hw : w ≤ 128) : (lowMask w).getLsbD k = decide (k < w) := by
  simp only [lowMask, BitVec.getLsbD_ushiftRight, BitVec.getLsbD_allOnes]
  congr 1
  apply propext
  omega

/-- Bit `k` of a slice is bit `lo + k` of the value, inside the width. -/
theorem slice_getLsbD (u : Ident) (lo w k : Nat) (hw : w ≤ 128) :
    (slice u lo w).getLsbD k = (decide (k < w) && u.getLsbD (lo + k)) := by
  simp [slice, lowMask_getLsbD _ _ hw, Bool.and_comm]

/-- A slice is the extracted field, zero-extended. -/
theorem slice_eq_extract (u : Ident) (lo w : Nat) (hw : w ≤ 128) :
    slice u lo w = (u.extractLsb' lo w).setWidth 128 := by
  apply BitVec.eq_of_getLsbD_eq
  intro k hk
  rw [slice_getLsbD _ _ _ _ hw, BitVec.getLsbD_setWidth, BitVec.getLsbD_extractLsb']
  simp [hk]

/-- Bit `k` after a slice was replaced: the new value inside the slice, the old one outside. -/
theorem setSlice_getLsbD (u v : Ident) (lo w k : Nat) (hw : lo + w ≤ 128) :
    (setSlice u lo w v).getLsbD k = if lo ≤ k ∧ k < lo + w then v.getLsbD (k - lo) else u.getLsbD k := by
  have hm := fun j => lowMask_getLsbD w j (by omega)
  by_cases hk : k < 128
  · simp only [setSlice, BitVec.getLsbD_or, BitVec.getLsbD_and, BitVec.getLsbD_not, BitVec.getLsbD_shiftLeft, hm, hk, decide_true,
      Bool.true_and]
    by_cases h1 : lo ≤ k
    · by_cases h2 : k < lo + w
      · have h3 : k - lo < w := by omega
        have h4 : ¬ k < lo := by omega
        simp [h1, h2, h3, h4]
      · have h3 : ¬ k - lo < w := by omega
        simp [h2, h3]
    · have h4 : k < lo := by omega
      simp [h1, h4]
  · have h1 : ¬ (lo ≤ k ∧ k < lo + w) := by omega
    rw [if_neg h1, BitVec.getLsbD_of_ge _ _ (by omega), BitVec.getLsbD_of_ge _ _ (by omega)]

/-! ### Bytes of an identifier (00_scope.md R9) -/

theorem byteOf_getLsbD (u : Ident) (i k : Nat) :
    (byteOf u i).getLsbD k = (decide (k < 8) && u.getLsbD (byteLo i + k)) := by
  simp only [byteOf, BitVec.getLsbD_setWidth, slice_getLsbD _ _ 8 _ (by decide)]
  by_cases h : k < 8 <;> simp [h]

theorem byteOf_eq_extract (u : Ident) (i : Nat) : byteOf u i = u.extractLsb' (byteLo i) 8 := by
  apply BitVec.eq_of_getLsbD_eq
  intro k hk
  rw [byteOf_getLsbD, BitVec.getLsbD_extractLsb']

/-- A byte after one byte was replaced (41_uuid_layout.md R145). -/
theorem byteOf_setByte (u : Ident) (i j : Nat) (b : Byte) (hi : i ≤ 15) (hj : j ≤ 15) :
    byteOf (setByte u i b) j = if j = i then b else byteOf u j := by
  apply BitVec.eq_of_getLsbD_eq
  intro k hk
  rw [byteOf_getLsbD, setByte, setSlice_getLsbD _ _ _ _ _ (by unfold byteLo; omega)]
  by_cases h : j = i
  · subst h
    rw [if_pos ⟨by omega, by omega⟩, if_pos rfl, show byteLo j + k - byteLo j = k by omega]
    simp [hk, show k < 128 by omega]
  · rw [if_neg h, if_neg (by unfold byteLo; omega), byteOf_getLsbD]

/-- Two identifiers with the same 16 bytes are equal. -/
theorem ident_ext_bytes (a b : Ident) (h : ∀ i < 16, byteOf a i = byteOf b i) : a = b := by
  apply BitVec.eq_of_getLsbD_eq
  intro k hk
  have h' := congrArg (fun x : Byte => x.getLsbD (k % 8)) (h (15 - k / 8) (by omega))
  simp only [byteOf_getLsbD] at h'
  rw [show byteLo (15 - k / 8) + k % 8 = k by unfold byteLo; omega] at h'
  simpa [Nat.mod_lt] using h'

/-! ### Characters (00_scope.md R11) -/

/-- `HexVal` of an emitted digit is the digit, in either case. -/
theorem hexVal_hexChar (n : BitVec 4) (c : HexCase) : hexVal ((hexChar n c).setWidth 32) = some n := by
  have h : ∀ m : Fin 16, hexVal ((hexChar (BitVec.ofFin m) .lower).setWidth 32) = some (BitVec.ofFin m) ∧
      hexVal ((hexChar (BitVec.ofFin m) .upper).setWidth 32) = some (BitVec.ofFin m) := by decide
  cases c
  · exact (h n.toFin).1
  · exact (h n.toFin).2

/-- `HexVal(c)` is defined exactly on the hex digits, with their value. -/
theorem hexVal_eq_some (c : Word) (v : BitVec 4) : hexVal c = some v ↔ HexDigit c v.toNat := by
  have hv := v.isLt
  unfold hexVal HexDigit
  by_cases h1 : 0x30 ≤ c.toNat ∧ c.toNat ≤ 0x39
  · rw [if_pos h1, Option.some_inj, BitVec.toNat_eq, BitVec.toNat_ofNat]
    omega
  · rw [if_neg h1]
    by_cases h2 : 0x41 ≤ c.toNat ∧ c.toNat ≤ 0x46
    · rw [if_pos h2, Option.some_inj, BitVec.toNat_eq, BitVec.toNat_ofNat]
      omega
    · rw [if_neg h2]
      by_cases h3 : 0x61 ≤ c.toNat ∧ c.toNat ≤ 0x66
      · rw [if_pos h3, Option.some_inj, BitVec.toNat_eq, BitVec.toNat_ofNat]
        omega
      · rw [if_neg h3]
        simp
        omega

/-- A value that fits four bits is that of a hex digit exactly when `HexVal` gives it. -/
theorem hexVal_of_digit (c : Word) (x : Nat) (h : HexDigit c x) : x < 16 ∧ hexVal c = some (BitVec.ofNat 4 x) := by
  have hx : x < 16 := by unfold HexDigit at h; omega
  refine ⟨hx, (hexVal_eq_some c _).2 ?_⟩
  rwa [BitVec.toNat_ofNat, Nat.mod_eq_of_lt hx]

/-- No instance of `IsWs` contains a structural code point (43_uuid_parse.md R188). -/
theorem isWs_not_structural (cfg : Config) (c : Word) (h : isWs cfg c = true) : isStructural c = false := by
  simp only [isWs, Bool.and_eq_true, Bool.not_eq_true'] at h
  exact h.2

/-- A whitespace code point is of class Ws (R187). -/
theorem classify_of_isWs (cfg : Config) (c : Word) (h : isWs cfg c = true) : classify cfg c = .ws := by
  have hs := isWs_not_structural cfg c h
  simp only [isStructural, Bool.or_eq_false_iff, beq_eq_false_iff_ne, Option.isSome_eq_false_iff] at hs
  obtain ⟨⟨⟨h1, h2⟩, h3⟩, h4⟩ := hs
  have h1 : hexVal c = none := by simpa using h1
  simp [classify, h1, h2, h3, h4, h]

/-- A hex digit is of class Hex, with its value (R187). -/
theorem classify_of_digit (cfg : Config) (c : Word) (x : Nat) (h : HexDigit c x) :
    classify cfg c = .hex (BitVec.ofNat 4 x) := by
  simp [classify, (hexVal_of_digit c x h).2]

/-- The three code points with a class of their own (R187). -/
theorem classify_hyphen (cfg : Config) : classify cfg 0x2D#32 = .hyphen := by simp [classify, show hexVal 0x2D#32 = none by decide]
theorem classify_open (cfg : Config) : classify cfg 0x7B#32 = .openBrace := by simp [classify, show hexVal 0x7B#32 = none by decide]
theorem classify_close (cfg : Config) : classify cfg 0x7D#32 = .closeBrace := by simp [classify, show hexVal 0x7D#32 = none by decide]

end Sys2Proof.Machine
end

