-- ==== Sys2Proof/Laws/State.lean ====
section
/-! SUPPORT. One lemma per field per update of State, all by rfl, so that no proof unfolds a record update; and the register file. -/

namespace Sys2Proof.Machine.State

@[simp] theorem answer_sha (s : State) (st : Status) (v : Ident) : (s.answer st v).sha = s.sha := rfl
@[simp] theorem answer_u (s : State) (st : Status) (v : Ident) : (s.answer st v).u = s.u := rfl
@[simp] theorem answer_parser (s : State) (st : Status) (v : Ident) : (s.answer st v).parser = s.parser := rfl
@[simp] theorem answer_cfg (s : State) (st : Status) (v : Ident) : (s.answer st v).cfg = s.cfg := rfl
@[simp] theorem answer_inbox (s : State) (st : Status) (v : Ident) : (s.answer st v).inbox = s.inbox := rfl
@[simp] theorem answer_wdata (s : State) (st : Status) (v : Ident) : (s.answer st v).wdata = s.wdata := rfl
@[simp] theorem answer_out (s : State) (st : Status) (v : Ident) : (s.answer st v).out = ⟨st, v⟩ :: s.out := rfl
@[simp] theorem answer_draws (s : State) (st : Status) (v : Ident) : (s.answer st v).draws = s.draws := rfl

@[simp] theorem writeU_sha (s : State) (r : UReg) (v : Ident) : (s.writeU r v).sha = s.sha := rfl
@[simp] theorem writeU_u (s : State) (r : UReg) (v : Ident) : (s.writeU r v).u = s.u.set r v := rfl
@[simp] theorem writeU_parser (s : State) (r : UReg) (v : Ident) : (s.writeU r v).parser = s.parser := rfl
@[simp] theorem writeU_cfg (s : State) (r : UReg) (v : Ident) : (s.writeU r v).cfg = s.cfg := rfl
@[simp] theorem writeU_inbox (s : State) (r : UReg) (v : Ident) : (s.writeU r v).inbox = s.inbox := rfl
@[simp] theorem writeU_wdata (s : State) (r : UReg) (v : Ident) : (s.writeU r v).wdata = s.wdata := rfl
@[simp] theorem writeU_out (s : State) (r : UReg) (v : Ident) : (s.writeU r v).out = s.out := rfl
@[simp] theorem writeU_draws (s : State) (r : UReg) (v : Ident) : (s.writeU r v).draws = s.draws := rfl

@[simp] theorem present_sha (s : State) (d : Ident) : (s.present d).sha = s.sha := rfl
@[simp] theorem present_u (s : State) (d : Ident) : (s.present d).u = s.u := rfl
@[simp] theorem present_parser (s : State) (d : Ident) : (s.present d).parser = s.parser := rfl
@[simp] theorem present_cfg (s : State) (d : Ident) : (s.present d).cfg = s.cfg := rfl
@[simp] theorem present_inbox (s : State) (d : Ident) : (s.present d).inbox = s.inbox := rfl
@[simp] theorem present_wdata (s : State) (d : Ident) : (s.present d).wdata = d := rfl
@[simp] theorem present_out (s : State) (d : Ident) : (s.present d).out = s.out := rfl
@[simp] theorem present_draws (s : State) (d : Ident) : (s.present d).draws = s.draws := rfl

@[simp] theorem enqueueFirst_sha (s : State) (as : List HostAction) : (s.enqueueFirst as).sha = s.sha := rfl
@[simp] theorem enqueueFirst_u (s : State) (as : List HostAction) : (s.enqueueFirst as).u = s.u := rfl
@[simp] theorem enqueueFirst_parser (s : State) (as : List HostAction) : (s.enqueueFirst as).parser = s.parser := rfl
@[simp] theorem enqueueFirst_cfg (s : State) (as : List HostAction) : (s.enqueueFirst as).cfg = s.cfg := rfl
@[simp] theorem enqueueFirst_inbox (s : State) (as : List HostAction) : (s.enqueueFirst as).inbox = as ++ s.inbox := rfl
@[simp] theorem enqueueFirst_wdata (s : State) (as : List HostAction) : (s.enqueueFirst as).wdata = s.wdata := rfl
@[simp] theorem enqueueFirst_out (s : State) (as : List HostAction) : (s.enqueueFirst as).out = s.out := rfl
@[simp] theorem enqueueFirst_draws (s : State) (as : List HostAction) : (s.enqueueFirst as).draws = s.draws := rfl

@[simp] theorem resetUnits_sha (s : State) : (s.resetUnits).sha = { h := iv, buf := freeBuffer s.draws, nblk := 0, nbuf := 0, fin := false } := rfl
@[simp] theorem resetUnits_u (s : State) : (s.resetUnits).u = Vector.replicate 4 0 := rfl
@[simp] theorem resetUnits_parser (s : State) : (s.resetUnits).parser = { pst := .initial, pdig := 0, pbo := false, pbc := false, pbuf := Vector.replicate 16 0 } := rfl
@[simp] theorem resetUnits_cfg (s : State) : (s.resetUnits).cfg = s.cfg := rfl
@[simp] theorem resetUnits_inbox (s : State) : (s.resetUnits).inbox = s.inbox := rfl
@[simp] theorem resetUnits_wdata (s : State) : (s.resetUnits).wdata = s.wdata := rfl
@[simp] theorem resetUnits_out (s : State) : (s.resetUnits).out = s.out := rfl
@[simp] theorem resetUnits_draws (s : State) : (s.resetUnits).draws = s.draws + 1 := rfl

/-- Reading a register after a write: the value in the register written, the old value in the others (10_state.md R28). -/
@[simp] theorem readU_writeU (s : State) (r q : UReg) (v : Ident) :
    (s.writeU r v).readU q = if q = r then v else s.readU q := by
  unfold readU writeU
  by_cases h : q = r
  · subst h; simp
  · simp only [h, if_false]
    exact Vector.getElem_set_ne _ _ (fun e => h (Fin.ext e.symm))

@[simp] theorem readU_answer (s : State) (st : Status) (v : Ident) (q : UReg) : (s.answer st v).readU q = s.readU q := rfl
@[simp] theorem readU_present (s : State) (d : Ident) (q : UReg) : (s.present d).readU q = s.readU q := rfl

/-- After a reset every register is nil (R39). -/
@[simp] theorem readU_resetUnits (s : State) (q : UReg) : s.resetUnits.readU q = 0 := by
  simp [readU]

@[simp] theorem dataByte_present (s : State) (d : Ident) : (s.present d).dataByte = d.setWidth 8 := rfl
@[simp] theorem codePoint_present (s : State) (d : Ident) : (s.present d).codePoint = d.setWidth 32 := rfl

/-- Taking an action from a non-empty inbox. -/
@[simp] theorem nextAction_cons (s : State) (a : HostAction) (rest : List HostAction) (h : s.inbox = a :: rest) :
    s.nextAction = some (a, { s with inbox := rest }) := by
  simp [nextAction, h]

@[simp] theorem nextAction_nil (s : State) (h : s.inbox = []) : s.nextAction = none := by
  simp [nextAction, h]

end Sys2Proof.Machine.State
end

