-- ==== Sys2Proof/Laws/Ops.lean ====
section
/-! SUPPORT. Everything a shared operation can answer: responses, the two faults, index checks, digest reads, host actions. -/

namespace Sys2Proof.Machine

@[simp] theorem respond_eq (v : Ident) (s : State) : respond v s = .next (s.answer .ok v) := rfl
@[simp] theorem raise_eq (st : Status) (s : State) : raise st s = .next (s.answer st 0) := rfl

/-- A command with its index in range runs its body. -/
theorem withIndex_ok (last : Nat) (idx : Byte) (body : State → Result) (s : State) (h : idx.toNat ≤ last) :
    withIndex last idx body s = body s := by simp [withIndex, h]

/-- Out of range it raises IllegalCmd (30_encoding.md R75). -/
theorem withIndex_illegal (last : Nat) (idx : Byte) (body : State → Result) (s : State) (h : last < idx.toNat) :
    withIndex last idx body s = .next (s.answer .illegalCmd 0) := by
  rw [withIndex, if_neg (by omega)]; rfl

/-- A digest read of a finished unit. -/
theorem readDigest_finished (view : Vector Word 5 → Ident) (s : State) (h : s.sha.fin = true) :
    readDigest view s = .next (s.answer .ok (view s.sha.h)) := by simp [readDigest, h]

/-- A digest read of an unfinished unit raises NotFinished (60_exceptions.md R233). -/
theorem readDigest_unfinished (view : Vector Word 5 → Ident) (s : State) (h : s.sha.fin = false) :
    readDigest view s = .next (s.answer .notFinished 0) := by simp [readDigest, h]

/-- A field selector names a field exactly in its range (41_uuid_layout.md R147). -/
theorem fieldOf_isSome (idx : Byte) : (fieldOf idx).isSome = decide (idx.toNat ≤ 5) := by
  rcases hn : idx.toNat with _ | _ | _ | _ | _ | _ | n <;> simp [fieldOf, hn]

/-- A word that decodes runs its command. -/
theorem runCommand_instr (w : Word) (i : Instr) (s : State) (h : decode w = .instr i) : runCommand w s = exec i s := by
  simp [runCommand, h]

/-- A word that does not decode raises IllegalCmd (60_exceptions.md R232). -/
theorem runCommand_illegal (w : Word) (e : DecodeError) (s : State) (h : decode w = .illegal e) :
    runCommand w s = .next (s.answer .illegalCmd 0) := by
  simp [runCommand, h]

end Sys2Proof.Machine
end

