-- ==== Sys2Proof/Laws/Parser.lean ====
section
/-! SUPPORT. The parser's output buffer digit by digit, and the parser's value byte by byte (10_state.md R34). -/

namespace Sys2Proof.Machine

/-! ### Digits of the output buffer -/

theorem nibble_getLsbD (b : Byte) (n k : Nat) :
    (nibble b n).getLsbD k = (decide (k < 4) && b.getLsbD (if n % 2 = 0 then 4 + k else k)) := by
  unfold nibble
  split <;> simp [BitVec.getLsbD_setWidth, BitVec.getLsbD_ushiftRight, Nat.add_comm]

/-- The byte with one nibble replaced, as `writeDigit` builds it. -/
def withNibble (old : Byte) (k : Nat) (v : BitVec 4) : Byte :=
  if k % 2 = 0 then (v.setWidth 8 <<< 4) ||| (old &&& 0x0F#8) else (old &&& 0xF0#8) ||| v.setWidth 8

theorem nibble_withNibble (old : Byte) (k j : Nat) (v : BitVec 4) :
    nibble (withNibble old k v) j = if j % 2 = k % 2 then v else nibble old j := by
  have h0F : ∀ i < 8, (0x0F#8).getLsbD i = decide (i < 4) := by decide
  have hF0 : ∀ i < 8, (0xF0#8).getLsbD i = decide (4 ≤ i) := by decide
  apply BitVec.eq_of_getLsbD_eq
  intro i hi
  have a8 : 4 + i < 8 := by omega
  have a4 : ¬ 4 + i < 4 := by omega
  have b8 : i < 8 := by omega
  rw [nibble_getLsbD]
  rcases Nat.mod_two_eq_zero_or_one k with hk | hk <;> rcases Nat.mod_two_eq_zero_or_one j with hj | hj <;>
    simp only [withNibble, hk, hj, if_true, if_false, nibble_getLsbD, hi, decide_true, Bool.true_and, BitVec.getLsbD_or,
      BitVec.getLsbD_and, BitVec.getLsbD_shiftLeft, BitVec.getLsbD_setWidth, one_ne_zero, zero_ne_one]
  · simp only [h0F (4 + i) a8, a4, b8, Nat.add_sub_cancel_left, decide_false, decide_true, Bool.not_false, Bool.and_true, Bool.true_and,
      Bool.and_false, Bool.or_false, decide_eq_true a8]
  · simp [h0F i (by omega), hi]
  · simp [hF0 (4 + i) a8, a8]
  · simp only [hF0 i b8, b8, show ¬ 4 ≤ i by omega, decide_false, decide_true, Bool.and_false, Bool.false_or, Bool.true_and]

/-- One digit of the buffer is written, the other 31 stay (R34, R192). -/
theorem bufferDigit_writeDigit (buf : Vector Byte 16) (k j : Nat) (v : BitVec 4) (hk : k < 32) (hj : j < 32) :
    bufferDigit (writeDigit buf k v) j = if j = k then v else bufferDigit buf j := by
  have hset : (writeDigit buf k v).toList.getD (j / 2) 0 =
      if j / 2 = k / 2 then withNibble (buf.toList.getD (k / 2) 0) k v else buf.toList.getD (j / 2) 0 := by
    have hj2 : j / 2 < 16 := by omega
    have hk2 : k / 2 < 16 := by omega
    simp only [writeDigit, withNibble, List.getD_eq_getElem?_getD, Vector.getElem?_toList, Vector.getElem?_setIfInBounds]
    by_cases h : j / 2 = k / 2
    · rw [if_pos h.symm, if_pos hk2, if_pos h]; rfl
    · rw [if_neg (fun e => h e.symm), if_neg h]
  rw [bufferDigit, hset]
  by_cases h : j / 2 = k / 2
  · rw [if_pos h, nibble_withNibble]
    by_cases hm : j % 2 = k % 2
    · rw [if_pos hm, if_pos (by omega)]
    · rw [if_neg hm, if_neg (by omega), bufferDigit, h]
  · rw [if_neg h, if_neg (by omega), bufferDigit]

/-! ### The value -/

/-- Byte `i` of the value a parse delivers is `PBUF[i]` (43_uuid_parse.md R195). -/
theorem byteOf_identOfBytes (bs : Vector Byte 16) (i : Nat) (hi : i < 16) : byteOf (identOfBytes bs) i = bs[i] := by
  have hfold : ∀ (l : List Byte) (u : Ident) (k : Nat), l.length ≤ 16 →
      (l.foldl (fun (u : Ident) (b : Byte) => (u <<< 8) ||| b.setWidth 128) u).getLsbD k =
        if k < 8 * l.length then (l.getD (l.length - 1 - k / 8) 0).getLsbD (k % 8)
        else (decide (k < 128) && u.getLsbD (k - 8 * l.length)) := by
    intro l
    induction l with
    | nil => intro u k _; by_cases hk : k < 128 <;> simp [hk]; exact BitVec.getLsbD_of_ge _ _ (by omega)
    | cons b l ih =>
      intro u k hl
      rw [List.length_cons] at hl
      rw [List.foldl_cons, ih _ _ (by omega)]
      by_cases h1 : k < 8 * l.length
      · rw [if_pos h1, if_pos (by rw [List.length_cons]; omega), List.length_cons,
          show l.length + 1 - 1 - k / 8 = (l.length - 1 - k / 8) + 1 by omega, List.getD_cons_succ]
      · rw [if_neg h1, List.length_cons]
        by_cases h2 : k < 8 * (l.length + 1)
        · rw [if_pos h2, show l.length + 1 - 1 - k / 8 = 0 by omega, List.getD_cons_zero,
            show k % 8 = k - 8 * l.length by omega]
          simp [show k < 128 by omega, show k - 8 * l.length < 8 by omega, show k - 8 * l.length < 128 by omega]
        · rw [if_neg h2, BitVec.getLsbD_or, BitVec.getLsbD_shiftLeft, BitVec.getLsbD_setWidth,
            BitVec.getLsbD_of_ge b _ (by omega), show k - 8 * l.length - 8 = k - 8 * (l.length + 1) by omega]
          by_cases hk : k < 128
          · simp [hk, show ¬ k - 8 * l.length < 8 by omega, show k - 8 * l.length < 128 by omega]
          · simp [hk]
  apply BitVec.eq_of_getLsbD_eq
  intro k hk
  have hlen : bs.toList.length = 16 := by simp
  rw [byteOf_getLsbD, identOfBytes, hfold _ _ _ (by omega), hlen, if_pos (by unfold byteLo; omega),
    show 16 - 1 - (byteLo i + k) / 8 = i by unfold byteLo; omega, show (byteLo i + k) % 8 = k by unfold byteLo; omega]
  simp [hk, List.getD_eq_getElem?_getD, hi]

/-- Two buffers with the same 32 digits are equal. -/
theorem buffer_ext_digits (a b : Vector Byte 16) (h : ∀ k < 32, bufferDigit a k = bufferDigit b k) : a = b := by
  apply Vector.ext
  intro i hi
  apply BitVec.eq_of_getLsbD_eq
  intro k hk
  have hget : ∀ (buf : Vector Byte 16) (j : Nat), j / 2 = i → buf.toList.getD (j / 2) 0 = buf[i]'hi := by
    intro buf j hj
    simp [List.getD_eq_getElem?_getD, hj, hi]
  by_cases h4 : k < 4
  · have := congrArg (fun x : BitVec 4 => x.getLsbD k) (h (2 * i + 1) (by omega))
    simp only [bufferDigit, nibble_getLsbD, h4, hget _ (2 * i + 1) (by omega), decide_true, Bool.true_and,
      show ¬ (2 * i + 1) % 2 = 0 by omega, if_false] at this
    exact this
  · have := congrArg (fun x : BitVec 4 => x.getLsbD (k - 4)) (h (2 * i) (by omega))
    simp only [bufferDigit, nibble_getLsbD, show k - 4 < 4 by omega, hget _ (2 * i) (by omega), decide_true, Bool.true_and,
      show 2 * i % 2 = 0 by omega, if_true, show 4 + (k - 4) = k by omega] at this
    exact this

end Sys2Proof.Machine
end

