-- ==== Sys2Proof/Laws/PerInstr.lean ====
section
/-! SUPPORT. Statements made per instruction: the opcode field of every command's word is the opcode of its row (30_encoding.md R73). -/

namespace Sys2Proof.Laws.Opcode

/-- The OP field of the command word is the command's opcode. -/
def Statement (i : Instr) : Prop := opField (encode i) = i.opcode

theorem coreReset : Statement .coreReset := opField_commandWord ..
theorem shaInit : Statement .shaInit := opField_commandWord ..
theorem shaAppend : Statement .shaAppend := opField_commandWord ..
theorem shaFinish : Statement .shaFinish := opField_commandWord ..
theorem shaRdw (idx : Byte) : Statement (.shaRdw idx) := opField_commandWord ..
theorem shaRdb (idx : Byte) : Statement (.shaRdb idx) := opField_commandWord ..
theorem shaRdhex (idx : Byte) : Statement (.shaRdhex idx) := opField_commandWord ..
theorem shaStat : Statement .shaStat := opField_commandWord ..
theorem uNil (rd : UReg) : Statement (.uNil rd) := opField_commandWord ..
theorem uMov (rd rs : UReg) : Statement (.uMov rd rs) := opField_commandWord ..
theorem uWr128 (rd : UReg) : Statement (.uWr128 rd) := opField_commandWord ..
theorem uRd128 (rs : UReg) : Statement (.uRd128 rs) := opField_commandWord ..
theorem uWrb (rd : UReg) (idx : Byte) : Statement (.uWrb rd idx) := opField_commandWord ..
theorem uRdb (rs : UReg) (idx : Byte) : Statement (.uRdb rs idx) := opField_commandWord ..
theorem uWrf (rd : UReg) (idx : Byte) : Statement (.uWrf rd idx) := opField_commandWord ..
theorem uRdf (rs : UReg) (idx : Byte) : Statement (.uRdf rs idx) := opField_commandWord ..
theorem uVariant (rs : UReg) : Statement (.uVariant rs) := opField_commandWord ..
theorem uVersion (rs : UReg) : Statement (.uVersion rs) := opField_commandWord ..
theorem uLdns (rd : UReg) (idx : Byte) : Statement (.uLdns rd idx) := opField_commandWord ..
theorem uEq (rs rt : UReg) : Statement (.uEq rs rt) := opField_commandWord ..
theorem uCmp (rs rt : UReg) : Statement (.uCmp rs rt) := opField_commandWord ..
theorem uFmtc (rs : UReg) (idx : Byte) : Statement (.uFmtc rs idx) := opField_commandWord ..
theorem uGen4 (rd : UReg) : Statement (.uGen4 rd) := opField_commandWord ..
theorem n5Begin (rs : UReg) : Statement (.n5Begin rs) := opField_commandWord ..
theorem n5End (rd : UReg) : Statement (.n5End rd) := opField_commandWord ..
theorem pStart : Statement .pStart := opField_commandWord ..
theorem pChar : Statement .pChar := opField_commandWord ..
theorem pEnd (rd : UReg) : Statement (.pEnd rd) := opField_commandWord ..
theorem pStat : Statement .pStat := opField_commandWord ..

end Sys2Proof.Laws.Opcode
end

