-- ==== Sys2Proof/Laws/Step.lean ====
section
/-! SUPPORT. A step and a run over the host's actions: what is pending behind an action does not matter to it. -/

namespace Sys2Proof.Machine

/-- One step takes the first pending action. -/
theorem step_cons (s : State) (a : HostAction) (rest : List HostAction) (h : s.inbox = a :: rest) :
    step s = runAction a { s with inbox := rest } := by
  simp [step, State.nextAction_cons s a rest h]

/-- With nothing pending the core keeps its state. -/
theorem step_nil (s : State) (h : s.inbox = []) : step s = .next s := by
  simp [step, State.nextAction_nil s h]

@[simp] theorem step_enqueueFirst (s : State) (a : HostAction) (as : List HostAction) :
    step (s.enqueueFirst (a :: as)) = runAction a (s.enqueueFirst as) :=
  step_cons _ a (as ++ s.inbox) rfl

/-- An outcome with actions put first in the inbox of its next state. -/
def enqueueIn (as : List HostAction) (r : Result) : Result :=
  match r with
  | .next s => .next (s.enqueueFirst as)
  | .fault f => .fault f
  | .refused f => .refused f

/-- A command does not look at the inbox. -/
theorem exec_enqueueFirst (i : Instr) (s : State) (as : List HostAction) :
    exec i (s.enqueueFirst as) = enqueueIn as (exec i s) := by
  cases i with
  | shaInit | shaFinish | n5Begin rs | n5End rd =>
    simp only [exec, execShaInit, execShaFinish, execN5Begin, execN5End, respond_eq, enqueueIn, State.enqueueFirst,
      State.answer, State.writeU, State.readU]
  | shaAppend =>
    by_cases h : s.sha.fin = true <;>
      simp [exec, execShaAppend, h, enqueueIn, State.enqueueFirst, State.answer, State.dataByte]
  | shaRdw idx | shaRdb idx | shaRdhex idx =>
    by_cases h : s.sha.fin = true <;>
      simp only [exec, execShaRdw, execShaRdb, execShaRdhex, withIndex, readDigest, State.enqueueFirst_sha, h] <;> split <;> rfl
  | uWrb rd idx | uRdb rd idx | uLdns rd idx | uFmtc rd idx =>
    simp only [exec, execUWrb, execURdb, execULdns, execUFmtc, withIndex]
    split <;> rfl
  | uWrf rd idx | uRdf rd idx =>
    simp only [exec, execUWrf, execURdf]
    cases fieldOf idx <;> rfl
  | pEnd rd =>
    by_cases h : s.parser.accepts = true <;>
      simp [exec, execPEnd, h, enqueueIn, State.enqueueFirst, State.answer, State.writeU]
  | _ => rfl

/-- An action does not look at what is pending behind it. -/
theorem runAction_enqueueFirst (a : HostAction) (s : State) (as : List HostAction) :
    runAction a (s.enqueueFirst as) = enqueueIn as (runAction a s) := by
  cases a with
  | reset => rfl
  | command w d =>
    show runCommand w ((s.present d).enqueueFirst as) = enqueueIn as (runCommand w (s.present d))
    unfold runCommand
    cases decode w with
    | instr i => exact exec_enqueueFirst i (s.present d) as
    | illegal e => rfl

/-! ### Runs -/

@[simp] theorem runAll_nil (s : State) : runAll [] s = .next s := rfl

/-- A run whose first action leaves `t` goes on from `t`. -/
theorem runAll_cons (a : HostAction) (as : List HostAction) (s t : State) (h : runAction a s = .next t) :
    runAll (a :: as) s = runAll as t := by
  have hs : step (s.enqueueFirst (a :: as)) = .next (t.enqueueFirst as) := by
    rw [step_enqueueFirst, runAction_enqueueFirst, h]; rfl
  show Host.Core.run Sys2Proof.core (as.length + 1) (s.enqueueFirst (a :: as)) = _
  simp only [Host.Core.run]
  rw [show Sys2Proof.core.step (s.enqueueFirst (a :: as)) = .next (t.enqueueFirst as) from hs]
  rfl

/-- A run in two parts. -/
theorem runAll_append (as bs : List HostAction) (s t : State) (h : runAll as s = .next t) :
    runAll (as ++ bs) s = runAll bs t := by
  induction as generalizing s with
  | nil =>
    rw [runAll_nil] at h
    cases h
    rfl
  | cons a as ih =>
    cases hr : runAction a s with
    | next s' =>
      rw [runAll_cons a as s s' hr] at h
      rw [List.cons_append, runAll_cons a (as ++ bs) s s' hr, ih s' h]
    | fault f => exact nomatch f
    | refused f =>
      have hs : step (s.enqueueFirst (a :: as)) = .refused f := by
        rw [step_enqueueFirst, runAction_enqueueFirst, hr]; rfl
      have : runAll (a :: as) s = .refused f := by
        show Host.Core.run Sys2Proof.core (as.length + 1) (s.enqueueFirst (a :: as)) = _
        simp only [Host.Core.run]
        rw [show Sys2Proof.core.step (s.enqueueFirst (a :: as)) = .refused f from hs]
        rfl
      rw [this] at h
      cases h

end Sys2Proof.Machine
end

