-- ==== Sys2Proof/Tests/Slice0.lean ====
section
/-! SUPPORT. Tests. Expected values are those of the spec: its examples (40 to 44), its vectors and programs (95_test_vectors.md), its encodings
(30_encoding.md R73). The second half holds, for each statement with hypotheses, concrete states and operands that meet them. -/

open Sys2Proof Sys2Proof.Machine Sys2Proof.Claims

namespace Sys2Proof.Tests

/-! ### Small states -/

/-- The state a command leaves. -/
def ran (i : Instr) (s : State) : State :=
  match exec i s with
  | .next t => t
  | .fault f => nomatch f
  | .refused _ => s

/-- The response a command gives. -/
def response (i : Instr) (s : State) : Option Response := (ran i s).out.head?

/-- The state a step leaves. -/
def stepped (s : State) : State :=
  match step s with
  | .next t => t
  | .fault f => nomatch f
  | .refused _ => s

/-- The reset state with a value on the write-data bus. -/
def withData (d : Ident) : State := { State.reset with wdata := d }

/-- The reset state with a value in one register. -/
def withU (r : UReg) (v : Ident) : State := State.reset.writeU r v

/-- The DNS namespace, the running example of 41_uuid_layout.md. -/
def dns : Ident := 0x6BA7B8109DAD11D180B400C04FD430C8#128

/-- The URL namespace. -/
def url : Ident := 0x6BA7B8119DAD11D180B400C04FD430C8#128

/-- The value of vector E9. -/
def e9 : Ident := 0x4BE0643F1D98573B97CDCA98A65347DD#128

/-- U0 = DNS, U1 = URL, U2 = OID, U3 = X500 (95_test_vectors.md 2.5). -/
def namespaces : State :=
  { State.reset with
    u := #v[dns, url, 0x6BA7B8129DAD11D180B400C04FD430C8#128, 0x6BA7B8149DAD11D180B400C04FD430C8#128] }

/-- A SHA-1 unit after SHA.INIT and the bytes 61 62 63, with a given count of buffered bytes. -/
def buffered (n : BitVec 6) : State :=
  { State.reset with
    sha := { State.reset.sha with buf := ((State.reset.sha.buf.set 0 0x61#8).set 1 0x62#8).set 2 0x63#8, nbuf := n } }

/-- A finished SHA-1 unit with the digest of "abc" (40_sha1.md R103). -/
def digested : State :=
  { State.reset with
    sha := { State.reset.sha with
      h := #v[0xA9993E36#32, 0x4706816A#32, 0xBA3E2571#32, 0x7850C26C#32, 0x9CD0D89D#32], nblk := 1, fin := true } }

/-- A parser in a given state, with a code point on the bus. -/
def parsing (pst : ParseState) (pdig : BitVec 6) (pbo pbc : Bool) (c : Ident) : State :=
  { State.reset with parser := { State.reset.parser with pst := pst, pdig := pdig, pbo := pbo, pbc := pbc }, wdata := c }

/-- The parser of program P3 at its end: the buffer holds `e9`, both braces were seen. -/
def parsedP3 : State :=
  { State.reset with
    parser :=
      { pst := .finished, pdig := 32, pbo := true, pbc := true,
        pbuf := #v[0x4B, 0xE0, 0x64, 0x3F, 0x1D, 0x98, 0x57, 0x3B, 0x97, 0xCD, 0xCA, 0x98, 0xA6, 0x53, 0x47, 0xDD] } }

/-! ### WellFormed: an ill-formed term for each check is refused (30_encoding.md R75) -/

theorem test_wf_refuses_each_index_past_its_range :
    (Instr.shaRdw 5).wf = false ∧ (Instr.shaRdb 20).wf = false ∧ (Instr.shaRdhex 40).wf = false ∧ (Instr.uWrb 0 16).wf = false ∧
    (Instr.uRdb 0 16).wf = false ∧ (Instr.uWrf 0 6).wf = false ∧ (Instr.uRdf 0 6).wf = false ∧ (Instr.uLdns 0 4).wf = false ∧
    (Instr.uFmtc 0 36).wf = false := by decide

theorem test_wf_accepts_each_last_index :
    (Instr.shaRdw 4).wf = true ∧ (Instr.shaRdb 19).wf = true ∧ (Instr.shaRdhex 39).wf = true ∧ (Instr.uWrb 3 15).wf = true ∧
    (Instr.uRdb 3 15).wf = true ∧ (Instr.uWrf 3 5).wf = true ∧ (Instr.uRdf 3 5).wf = true ∧ (Instr.uLdns 3 3).wf = true ∧
    (Instr.uFmtc 3 35).wf = true := by decide

/-! ### Decoding: words written out field by field, OP RD RS RT Z IDX (R71, R73), and the words of 95_test_vectors.md 2.6 -/

theorem test_decode_field_by_field :
    decode (0x13#8 ++ 0#2 ++ 0#2 ++ 0#2 ++ 0#10 ++ 3#8) = .instr (.shaRdw 3) ∧
    decode (0x21#8 ++ 1#2 ++ 2#2 ++ 0#2 ++ 0#10 ++ 0#8) = .instr (.uMov 1 2) ∧
    decode (0x26#8 ++ 3#2 ++ 0#2 ++ 0#2 ++ 0#10 ++ 4#8) = .instr (.uWrf 3 4) ∧
    decode (0x2D#8 ++ 0#2 ++ 1#2 ++ 2#2 ++ 0#10 ++ 0#8) = .instr (.uCmp 1 2) ∧
    decode (0x31#8 ++ 0#2 ++ 2#2 ++ 0#2 ++ 0#10 ++ 0#8) = .instr (.n5Begin 2) ∧
    decode (0x42#8 ++ 2#2 ++ 0#2 ++ 0#2 ++ 0#10 ++ 0#8) = .instr (.pEnd 2) ∧
    decode (0x0F#8 ++ 0#2 ++ 0#2 ++ 0#2 ++ 0#10 ++ 0#8) = .instr .coreReset := by decide

theorem test_decode_sha_words :
    decode 0x0F000000#32 = .instr .coreReset ∧ decode 0x10000000#32 = .instr .shaInit ∧
    decode 0x11000000#32 = .instr .shaAppend ∧ decode 0x12000000#32 = .instr .shaFinish ∧
    decode 0x13000004#32 = .instr (.shaRdw 4) ∧ decode 0x14000013#32 = .instr (.shaRdb 19) ∧
    decode 0x15000027#32 = .instr (.shaRdhex 39) ∧ decode 0x16000000#32 = .instr .shaStat := by decide

theorem test_decode_layout_words :
    decode 0x20C00000#32 = .instr (.uNil 3) ∧ decode 0x21D00000#32 = .instr (.uMov 3 1) ∧
    decode 0x22C00000#32 = .instr (.uWr128 3) ∧ decode 0x23300000#32 = .instr (.uRd128 3) ∧
    decode 0x24C0000F#32 = .instr (.uWrb 3 15) ∧ decode 0x2530000F#32 = .instr (.uRdb 3 15) ∧
    decode 0x26C00005#32 = .instr (.uWrf 3 5) ∧ decode 0x27300005#32 = .instr (.uRdf 3 5) ∧
    decode 0x28300000#32 = .instr (.uVariant 3) ∧ decode 0x29300000#32 = .instr (.uVersion 3) ∧
    decode 0x2AC00003#32 = .instr (.uLdns 3 3) := by decide

theorem test_decode_order_generate_parse_words :
    decode 0x2C0C0000#32 = .instr (.uEq 0 3) ∧ decode 0x2D240000#32 = .instr (.uCmp 2 1) ∧
    decode 0x2E300023#32 = .instr (.uFmtc 3 35) ∧ decode 0x30C00000#32 = .instr (.uGen4 3) ∧
    decode 0x31300000#32 = .instr (.n5Begin 3) ∧ decode 0x32C00000#32 = .instr (.n5End 3) ∧
    decode 0x40000000#32 = .instr .pStart ∧ decode 0x41000000#32 = .instr .pChar ∧
    decode 0x42C00000#32 = .instr (.pEnd 3) ∧ decode 0x43000000#32 = .instr .pStat := by decide

theorem test_decode_rejects_unassigned_opcodes :
    [0x00000000#32, 0xFFFFFFFF#32, 0x0E000000#32, 0x17000000#32, 0x2B000000#32, 0x2F000000#32, 0x33000000#32, 0x44000000#32].all (fun w =>
      decide (decode w = .illegal .unassignedOpcode)) = true := by decide +kernel

theorem test_decode_rejects_must_be_zero_bits :
    [0x10000001#32, 0x10400000#32, 0x11000100#32, 0x20000100#32, 0x20020000#32, 0x20100000#32, 0x21040000#32, 0x23400000#32,
           0x2C400000#32, 0x41000001#32, 0x42100000#32].all (fun w =>
      decide (decode w = .illegal .mustBeZero)) = true := by decide +kernel

theorem test_decode_rejects_indices_past_their_range :
    [0x13000005#32, 0x14000014#32, 0x15000028#32, 0x24000010#32, 0x26000006#32, 0x2A000004#32, 0x2E000024#32].all (fun w =>
      decide (decode w = .illegal .indexOutOfRange)) = true := by decide +kernel

/-! ### Assembler lines of 95_test_vectors.md -/

/-- P2 step 9, P3 step 43, 2.2; and the largest index that the field of the word holds. -/
theorem test_assemble_lines :
    Asm.assembleLine "N5.END U1".toList = some [.command 0x32400000#32 0#128] ∧
    Asm.assembleLine "U.CMP U1, U2".toList = some [.command 0x2D180000#32 0#128] ∧
    Asm.assembleLine "U.WRF U2, CSH, #0x1FF".toList = some [.command 0x26800003#32 0x1FF#128] ∧
    Asm.assembleLine "U.WRB U0, 255, #1".toList = some [.command 0x240000FF#32 1#128] := by decide +kernel

/-! ### One command each -/

/-- P4, steps 26 to 29. -/
theorem test_coreReset_clears_the_units :
    (ran .coreReset { digested with u := #v[1, 2, 3, 4] }).u = #v[0, 0, 0, 0] ∧
    (ran .coreReset digested).sha.h = #v[0x67452301#32, 0xEFCDAB89#32, 0x98BADCFE#32, 0x10325476#32, 0xC3D2E1F0#32] ∧
    (ran .coreReset digested).sha.fin = false ∧ response .coreReset digested = some ⟨.ok, 0⟩ := by decide

/-- 95_test_vectors.md 2.1, last row. -/
theorem test_shaInit_restarts_the_unit :
    (ran .shaInit digested).sha.h = #v[0x67452301#32, 0xEFCDAB89#32, 0x98BADCFE#32, 0x10325476#32, 0xC3D2E1F0#32] ∧
    (ran .shaInit digested).sha.nblk = 0 ∧ (ran .shaInit digested).sha.fin = false := by decide

/-- 95_test_vectors.md 2.1: only the low byte of WDATA is used. -/
theorem test_shaAppend_takes_the_low_byte :
    (ran .shaAppend (withData 0x1FF)).sha.buf[0] = 0xFF#8 ∧ (ran .shaAppend (withData 0x1FF)).sha.nbuf = 1 := by decide

/-- 95_test_vectors.md 2.1: ignored while FIN = 1. -/
theorem test_shaAppend_is_ignored_after_finish : (ran .shaAppend digested).sha = digested.sha := by decide

/-- 40_sha1.md R103, FIPS "abc". -/
theorem test_shaFinish_abc :
    (ran .shaFinish (buffered 3)).sha.h = #v[0xA9993E36#32, 0x4706816A#32, 0xBA3E2571#32, 0x7850C26C#32, 0x9CD0D89D#32] ∧
    (ran .shaFinish (buffered 3)).sha.nblk = 1 ∧ (ran .shaFinish (buffered 3)).sha.nbuf = 0 := by decide +kernel

/-- 95_test_vectors.md P4, step 18: the empty message. -/
theorem test_shaFinish_empty_message :
    (ran .shaFinish State.reset).sha.h = #v[0xDA39A3EE#32, 0x5E6B4B0D#32, 0x3255BFEF#32, 0x95601890#32, 0xAFD80709#32] := by
  decide +kernel

/-- P1, step 11; P1, step 6. -/
theorem test_shaRdw : response (.shaRdw 2) digested = some ⟨.ok, 0xBA3E2571#128⟩ ∧
    response (.shaRdw 0) (buffered 3) = some ⟨.notFinished, 0⟩ := by decide

/-- P1, step 14; R235: the index is checked before FIN. -/
theorem test_shaRdb : response (.shaRdb 19) digested = some ⟨.ok, 0x9D#128⟩ ∧
    response (.shaRdb 20) State.reset = some ⟨.illegalCmd, 0⟩ := by decide

/-- 95_test_vectors.md 2.1. -/
theorem test_shaRdhex : response (.shaRdhex 0) digested = some ⟨.ok, 0x61#128⟩ ∧
    response (.shaRdhex 39) digested = some ⟨.ok, 0x64#128⟩ := by decide

/-- P1, steps 5 and 8. -/
theorem test_shaStat : response .shaStat (buffered 3) = some ⟨.ok, 0x300#128⟩ ∧
    response .shaStat digested = some ⟨.ok, 0x10000000000000001#128⟩ := by decide

theorem test_uNil : (ran (.uNil 1) namespaces).u[1] = 0 ∧ (ran (.uNil 1) namespaces).u[2] = namespaces.u[2] := by decide

/-- A source that is the other operand, and one that is the destination. -/
theorem test_uMov : (ran (.uMov 3 0) namespaces).u[3] = dns ∧ (ran (.uMov 3 3) namespaces).u = namespaces.u := by decide

theorem test_uWr128 : (ran (.uWr128 2) (withData dns)).u = #v[0, 0, dns, 0] := by decide

theorem test_uRd128 : response (.uRd128 1) namespaces = some ⟨.ok, url⟩ := by decide

/-- 41_uuid_layout.md R145; 95_test_vectors.md 2.2. -/
theorem test_uWrb : (ran (.uWrb 1 6) (withData 0x50)).u[1] = 0x00000000000050000000000000000000#128 ∧
    (ran (.uWrb 3 15) { withU 3 dns with wdata := 0x1C9 }).u[3] = 0x6BA7B8109DAD11D180B400C04FD430C9#128 := by decide

theorem test_uRdb : response (.uRdb 0 8) namespaces = some ⟨.ok, 0x80#128⟩ ∧
    response (.uRdb 0 0) namespaces = some ⟨.ok, 0x6B#128⟩ := by decide

/-- 95_test_vectors.md 2.2: the low 16 and the low 48 bits of WDATA. -/
theorem test_uWrf : (ran (.uWrf 2 2) (withData 0xABCD11D1)).u[2] = 0x00000000000011D10000000000000000#128 ∧
    (ran (.uWrf 2 5) { withU 2 0xDEADBEEF123411D1FF56000000000000#128 with wdata := 0xFFFF0A0B0C0D0E0F }).u[2] =
      0xDEADBEEF123411D1FF560A0B0C0D0E0F#128 := by decide

theorem test_uRdf : response (.uRdf 0 1) namespaces = some ⟨.ok, 0x9DAD#128⟩ ∧
    response (.uRdf 0 5) namespaces = some ⟨.ok, 0xC04FD430C8#128⟩ := by decide

/-- 95_test_vectors.md 2.2, by byte 8. -/
theorem test_uVariant_by_byte_8 :
    [(0x00#8, 0#128), (0x1F#8, 0#128), (0x20#8, 2#128), (0x7F#8, 2#128), (0x80#8, 1#128), (0xBF#8, 1#128), (0xC0#8, 3#128),
           (0xDF#8, 3#128), (0xE0#8, 4#128), (0xFF#8, 4#128)].all (fun p =>
      decide (response (.uVariant 2) (withU 2 (p.1.setWidth 128 <<< 56)) = some ⟨.ok, p.2⟩)) = true := by decide +kernel

/-- 95_test_vectors.md 2.2, by byte 6. -/
theorem test_uVersion_by_byte_6 :
    [(0x00#8, 0#128), (0x0F#8, 0#128), (0x11#8, 1#128), (0x46#8, 4#128), (0x57#8, 5#128), (0xFF#8, 15#128)].all (fun p =>
      decide (response (.uVersion 1) (withU 1 (p.1.setWidth 128 <<< 72)) = some ⟨.ok, p.2⟩)) = true := by decide +kernel

theorem test_uLdns : (ran (.uLdns 1 0) State.reset).u[1] = dns ∧
    (ran (.uLdns 3 3) State.reset).u[3] = 0x6BA7B8149DAD11D180B400C04FD430C8#128 := by decide

theorem test_uEq : response (.uEq 0 0) namespaces = some ⟨.ok, 1⟩ ∧ response (.uEq 0 1) namespaces = some ⟨.ok, 0⟩ := by decide

/-- 95_test_vectors.md 2.5: less, and the unsigned corner. -/
theorem test_uCmp : response (.uCmp 0 1) namespaces = some ⟨.ok, 0xFFFFFFFFFFFFFFFFFFFFFFFFFFFFFFFF#128⟩ ∧
    response (.uCmp 0 1)
      { State.reset with u := #v[0x80000000000000000000000000000000#128, 0x7FFFFFFFFFFFFFFFFFFFFFFFFFFFFFFF#128, 0, 0] } =
      some ⟨.ok, 1⟩ := by decide

/-- 95_test_vectors.md 2.5, the row of U.FMTC. -/
theorem test_uFmtc :
    [(0#8, 0x34#128), (1#8, 0x62#128), (7#8, 0x66#128), (8#8, 0x2D#128), (9#8, 0x31#128), (12#8, 0x38#128), (13#8, 0x2D#128),
           (14#8, 0x35#128), (18#8, 0x2D#128), (19#8, 0x39#128), (23#8, 0x2D#128), (24#8, 0x63#128), (35#8, 0x64#128)].all (fun p =>
      decide (response (.uFmtc 1 p.1) (withU 1 e9) = some ⟨.ok, p.2⟩)) = true := by decide +kernel

/-- 95_test_vectors.md 2.5, `FMT_CASE = upper`. -/
theorem test_uFmtc_upper :
    [(1#8, 0x42#128), (7#8, 0x46#128), (8#8, 0x2D#128), (24#8, 0x43#128), (35#8, 0x44#128)].all (fun p =>
      decide (response (.uFmtc 1 p.1) { withU 1 e9 with cfg := ⟨[], .upper⟩ } = some ⟨.ok, p.2⟩)) = true := by decide +kernel

/-- 95_test_vectors.md 2.3. -/
theorem test_uGen4 : (ran (.uGen4 3) (withData 0x00112233445566778899AABBCCDDEEFF#128)).u[3] = 0x00112233445546778899AABBCCDDEEFF#128 ∧
    (ran (.uGen4 0) (withData (BitVec.allOnes 128))).u[0] = 0xFFFFFFFFFFFF4FFFBFFFFFFFFFFFFFFF#128 := by decide

/-- P2, steps 2 and 3. -/
theorem test_n5Begin : (ran (.n5Begin 0) namespaces).sha.nbuf = 16 ∧ (ran (.n5Begin 0) namespaces).sha.buf[0] = 0x6B#8 ∧
    (ran (.n5Begin 0) namespaces).sha.buf[15] = 0xC8#8 := by decide

/-- 95_test_vectors.md 2.3, DNS and the empty name: N5.END after N5.BEGIN. -/
theorem test_n5End : (ran (.n5End 1) (ran (.n5Begin 0) namespaces)).u[1] = 0x4EBD020883285D698C44EC50939C0967#128 ∧
    (ran (.n5End 1) (ran (.n5Begin 0) namespaces)).sha.h[4] = 0xE1CCDEED#32 := by decide +kernel

theorem test_pStart : (ran .pStart parsedP3).parser = State.reset.parser ∧ response .pStart parsedP3 = some ⟨.ok, 0⟩ := by decide

/-- 95_test_vectors.md 2.4, the trace: `4` after an opening brace; `-` inside a byte. -/
theorem test_pChar : (ran .pChar (parsing .initial 0 true false 0x34)).parser.pbuf[0] = 0x40#8 ∧
    response .pStat (ran .pChar (parsing .initial 0 true false 0x34)) = some ⟨.ok, 0x0111#128⟩ ∧
    response .pStat (ran .pChar (parsing .parsing 3 true false 0x2D)) = some ⟨.ok, 0x0313#128⟩ := by decide

/-- 95_test_vectors.md 2.4: only ASCII digits are hex digits (D19), and no value of the bus is illegal (R186). -/
theorem test_pChar_other_code_points :
    [0x0000FF14#128, 0x00002010#128, 0x00110000#128, 0xFFFFFFFF#128].all (fun c =>
      decide ((ran .pChar (parsing .initial 0 false false c)).parser.pst = .error ∧
      (ran .pChar (parsing .finished 32 false false c)).parser.pst = .error)) = true := by decide +kernel

/-- P3, step 42; P4, steps 13 and 14. -/
theorem test_pEnd : (ran (.pEnd 2) parsedP3).u = #v[0, 0, e9, 0] ∧ response (.pEnd 2) parsedP3 = some ⟨.ok, 1⟩ ∧
    response (.pEnd 3) (parsing .error 7 false false 0) = some ⟨.ok, 0⟩ ∧
    (ran (.pEnd 1) { namespaces with parser := { State.reset.parser with pst := .error } }).u = namespaces.u := by decide

/-- P3, step 41; P4, step 12. -/
theorem test_pStat : response .pStat parsedP3 = some ⟨.ok, 0x2032#128⟩ ∧
    response .pStat (parsing .error 7 false false 0) = some ⟨.ok, 0x703#128⟩ := by decide

/-- The step that `withFetchWord` prepares runs the word, first after reset. -/
theorem test_step_runs_the_placed_word :
    (stepped (State.reset.withFetchWord 32 0x2A400001)).u[1] = url ∧
    (stepped (State.reset.withFetchWord 32 0x2B000000)).out = [⟨.illegalCmd, 0⟩] ∧
    (stepped (State.reset.withFetchWord 32 0x2B000000)).inbox = [] := by decide

/-! ### Witnesses: states and operands that meet the hypotheses of the statements, one for each clause, at the ends of its range -/

theorem witness_SpecWordsDecodeToTheirCommands : (0x2E100023#32, Instr.uFmtc 1 35) ∈ specWords := by decide

theorem witness_DecodeOfEncodeGivesTheCommandBack : (Instr.uFmtc 3 35).wf = true ∧ (Instr.uCmp 1 2).wf = true := by decide

theorem witness_EncodeOfDecodeGivesTheWordBack : decode 0x24C0000F#32 = .instr (.uWrb 3 15) := by decide

theorem witness_WordSelectsOneRowOrRaisesIllegalCmd :
    SpellsCommand 0x15000027#32 ∧ SpellsCommand 0x2D3C0000#32 ∧ ¬ SpellsCommand 0x15000028#32 ∧ ¬ SpellsCommand 0x20020000#32 ∧
    ¬ SpellsCommand 0x2B000000#32 := by
  unfold SpellsCommand Uses.Selects
  decide

theorem witness_IndexOutOfRangeRaisesIllegalCmd : (Instr.shaRdw 5).wf = false ∧ (Instr.uWrb 2 255).wf = false := by decide

theorem witness_StepExecutesTheDecodedCommand :
    decode 0x21400000#32 = .instr (.uMov 1 0) ∧ 0x21400000 < 2 ^ 32 ∧ decodeTableWord 32 0x21400000 = some (.uMov 1 0) ∧
    State.reset.inbox = [] := by decide

/-- Each of the three statuses is given by some word: IllegalCmd, NotFinished, OK. -/
theorem witness_EveryCommandRespondsOnce :
    (¬ SpellsCommand 0x13000005#32) ∧ (SpellsCommand 0x13000004#32 ∧ State.reset.sha.fin = false) ∧
    (SpellsCommand 0x16000000#32 ∧ (0x16000000#32).extractLsb' 24 8 ∉ [0x13#8, 0x14#8, 0x15#8]) := by
  unfold SpellsCommand Uses.Selects
  decide

/-- The padded block of "abc" (95_test_vectors.md 2.1). -/
def abcBlock : Vector Byte 64 :=
  Vector.ofFn fun i => [0x61#8, 0x62#8, 0x63#8, 0x80#8].getD i.val (if i.val = 63 then 0x18#8 else 0)

/-- The working variables before round `t`, by the equations of R110. -/
def abcWorking : Nat → Working
  | 0 => ⟨iv[0], iv[1], iv[2], iv[3], iv[4]⟩
  | t + 1 =>
    let v := abcWorking t
    ⟨v.a.rotateLeft 5 + fOf t v.b v.c v.d + v.e + kOf t + (schedule abcBlock).getD t 0, v.a, v.b.rotateLeft 30, v.c, v.d⟩

theorem witness_CompressionIsEightyRounds :
    (∀ t (ht : t < 16), (schedule abcBlock).getD t 0 =
      abcBlock[4 * t] ++ abcBlock[4 * t + 1] ++ abcBlock[4 * t + 2] ++ abcBlock[4 * t + 3]) ∧
    (∀ t < 80, 16 ≤ t → (schedule abcBlock).getD t 0 =
      ((schedule abcBlock).getD (t - 3) 0 ^^^ (schedule abcBlock).getD (t - 8) 0 ^^^ (schedule abcBlock).getD (t - 14) 0 ^^^
        (schedule abcBlock).getD (t - 16) 0).rotateLeft 1) ∧
    (abcWorking 0).a = iv[0] ∧ (abcWorking 0).e = iv[4] ∧
    ∀ t, (abcWorking (t + 1)).a = (abcWorking t).a.rotateLeft 5 + fOf t (abcWorking t).b (abcWorking t).c (abcWorking t).d +
      (abcWorking t).e + kOf t + (schedule abcBlock).getD t 0 :=
  ⟨by decide +kernel, by decide +kernel, rfl, rfl, fun _ => rfl⟩

/-- The trace of 95_test_vectors.md 2.1: `W[16]`, `W[79]`, and `a` after rounds 0 and 79. -/
theorem test_abc_trace :
    (schedule abcBlock).getD 16 0 = 0xC2C4C700#32 ∧ (schedule abcBlock).getD 79 0 = 0x822E0879#32 ∧
    (abcWorking 1).a = 0x0116FC33#32 ∧ (abcWorking 80).a = 0x42541B35#32 := by decide +kernel

theorem witness_AppendBuffersAByteOrCompressesABlock :
    digested.sha.fin = true ∧ (State.reset.sha.fin = false ∧ State.reset.sha.nbuf.toNat < 63) ∧
    ((buffered 62).sha.fin = false ∧ (buffered 62).sha.nbuf.toNat < 63) ∧
    ((buffered 63).sha.fin = false ∧ (buffered 63).sha.nbuf.toNat = 63) := by decide

theorem witness_FinishCompressesThePaddedBlocks :
    digested.sha.fin = true ∧ (State.reset.sha.fin = false ∧ State.reset.sha.nbuf.toNat ≤ 55) ∧
    ((buffered 55).sha.fin = false ∧ (buffered 55).sha.nbuf.toNat ≤ 55) ∧
    ((buffered 56).sha.fin = false ∧ 56 ≤ (buffered 56).sha.nbuf.toNat) ∧
    ((buffered 63).sha.fin = false ∧ 56 ≤ (buffered 63).sha.nbuf.toNat) := by decide

theorem witness_FinishIsIdempotent :
    ∀ a ∈ [command .shaFinish, command .shaAppend 0x61], a = command .shaFinish ∨ ∃ b, a = command .shaAppend b := by
  intro a ha
  simp only [List.mem_cons, List.not_mem_nil, or_false] at ha
  exact ha.imp id fun h => ⟨_, h⟩

theorem witness_ReadWordAnswersADigestWord :
    4 < (5#8).toNat ∧ ((4#8).toNat ≤ 4 ∧ State.reset.sha.fin = false) ∧ ((0#8).toNat ≤ 4 ∧ digested.sha.fin = true) ∧
    ((4#8).toNat ≤ 4 ∧ digested.sha.fin = true) := by decide

theorem witness_ReadByteAnswersADigestByte :
    19 < (20#8).toNat ∧ ((19#8).toNat ≤ 19 ∧ State.reset.sha.fin = false) ∧ ((0#8).toNat ≤ 19 ∧ digested.sha.fin = true) ∧
    ((19#8).toNat ≤ 19 ∧ digested.sha.fin = true) := by decide

theorem witness_ReadHexAnswersADigestCharacter :
    39 < (40#8).toNat ∧ ((39#8).toNat ≤ 39 ∧ State.reset.sha.fin = false) ∧ ((0#8).toNat ≤ 39 ∧ digested.sha.fin = true) ∧
    ((39#8).toNat ≤ 39 ∧ digested.sha.fin = true) := by decide

theorem witness_WriteByteReplacesOneByte : 15 < (16#8).toNat ∧ (0#8).toNat ≤ 15 ∧ (15#8).toNat ≤ 15 := by decide

theorem witness_ReadByteAnswersOneByte : 15 < (255#8).toNat ∧ (0#8).toNat ≤ 15 ∧ (15#8).toNat ≤ 15 := by decide

theorem witness_WriteFieldReplacesOneField :
    5 < (6#8).toNat ∧ ((0, 96, 32) ∈ fieldTable ∧ (0#8).toNat = 0) ∧ ((5, 0, 48) ∈ fieldTable ∧ (5#8).toNat = 5) := by decide

theorem witness_ReadFieldAnswersOneField :
    5 < (6#8).toNat ∧ ((0, 96, 32) ∈ fieldTable ∧ (0#8).toNat = 0) ∧ ((5, 0, 48) ∈ fieldTable ∧ (5#8).toNat = 5) := by decide

theorem witness_PiecewiseWritesGiveTheWholeValue :
    (List.range 16).reverse.Perm (List.range 16) ∧ fieldTable.reverse.Perm fieldTable :=
  ⟨List.reverse_perm _, List.reverse_perm _⟩

theorem witness_LoadNamespaceWritesTheConstant : 3 < (4#8).toNat ∧ (0#8).toNat = 0 ∧ (3#8).toNat = 3 := by decide

theorem witness_WhitespaceInstancesAreThoseOfTheSpec :
    HexDigit 0x66#32 15 ∧ ((fun c : Word => c == 0x20#32) 0x20#32 = true) ∧
    ∀ c : Word, (∃ v, HexDigit c v) ∨ c = 0x2D#32 ∨ c = 0x7B#32 ∨ c = 0x7D#32 → (fun c : Word => c == 0x20#32) c = false := by
  refine ⟨by unfold HexDigit; decide, rfl, ?_⟩
  intro c h
  have hne : c.toNat ≠ 0x20 := by
    rcases h with ⟨v, h⟩ | rfl | rfl | rfl
    · unfold HexDigit at h; omega
    · decide
    · decide
    · decide
  exact beq_eq_false_iff_ne.2 fun e => hne (by rw [e]; rfl)

theorem witness_CharacterStepInInitial :
    ((parsing .initial 0 false false 0x20).parser.pst = .initial ∧
      isWs State.reset.cfg ((parsing .initial 0 false false 0x20).wdata.extractLsb' 0 32) = true) ∧
    ((parsing .initial 0 true false 0x7B).parser.pst = .initial ∧
      (parsing .initial 0 true false 0x7B).wdata.extractLsb' 0 32 = 0x7B#32) ∧
    (HexDigit ((parsing .initial 0 false false 0x30).wdata.extractLsb' 0 32) 0 ∧
      HexDigit ((parsing .initial 0 false false 0x46).wdata.extractLsb' 0 32) 15 ∧
      HexDigit ((parsing .initial 0 false false 0x66).wdata.extractLsb' 0 32) 15) ∧
    (isWs State.reset.cfg ((parsing .initial 0 false false 0x2D).wdata.extractLsb' 0 32) = false ∧
      (parsing .initial 0 false false 0x2D).wdata.extractLsb' 0 32 ≠ 0x7B#32 ∧
      ∀ v, ¬ HexDigit ((parsing .initial 0 false false 0x2D).wdata.extractLsb' 0 32) v) := by
  refine ⟨by decide, by decide, by unfold HexDigit; decide, by decide, by decide, ?_⟩
  intro v h
  unfold HexDigit at h
  simp [parsing] at h

theorem witness_CharacterStepInParsing :
    ((parsing .parsing 1 false false 0x39).parser.pst = .parsing ∧ (parsing .parsing 1 false false 0x39).parser.Inv ∧
      HexDigit ((parsing .parsing 1 false false 0x39).wdata.extractLsb' 0 32) 9) ∧
    ((parsing .parsing 31 true false 0x41).parser.Inv ∧
      HexDigit ((parsing .parsing 31 true false 0x41).wdata.extractLsb' 0 32) 10) ∧
    ((parsing .parsing 2 true false 0x2D).parser.Inv ∧
      (parsing .parsing 2 true false 0x2D).wdata.extractLsb' 0 32 = 0x2D#32) ∧
    ((parsing .parsing 30 true false 0x7D).parser.Inv ∧
      isWs State.reset.cfg ((parsing .parsing 30 true false 0x7D).wdata.extractLsb' 0 32) = false ∧
      (parsing .parsing 30 true false 0x7D).wdata.extractLsb' 0 32 ≠ 0x2D#32 ∧
      ∀ v, ¬ HexDigit ((parsing .parsing 30 true false 0x7D).wdata.extractLsb' 0 32) v) := by
  refine ⟨⟨rfl, ⟨⟨by decide, by decide⟩, by decide, by decide⟩, by unfold HexDigit; decide⟩,
    ⟨⟨⟨by decide, by decide⟩, by decide, by decide⟩, by unfold HexDigit; decide⟩,
    ⟨⟨⟨by decide, by decide⟩, by decide, by decide⟩, by decide⟩,
    ⟨⟨by decide, by decide⟩, by decide, by decide⟩, by decide, by decide, ?_⟩
  intro v h
  unfold HexDigit at h
  simp [parsing] at h

theorem witness_CharacterStepInFinished :
    ((parsing .finished 32 false false 0x20).parser.pst = .finished ∧
      isWs State.reset.cfg ((parsing .finished 32 false false 0x20).wdata.extractLsb' 0 32) = true) ∧
    ((parsing .finished 32 true false 0x7D).parser.pst = .finished ∧
      (parsing .finished 32 true false 0x7D).wdata.extractLsb' 0 32 = 0x7D#32) ∧
    ((parsing .finished 32 true true 0x7D).parser.pst = .finished ∧
      (parsing .finished 32 true true 0x7D).wdata.extractLsb' 0 32 = 0x7D#32) ∧
    (isWs State.reset.cfg ((parsing .finished 32 true true 0x30).wdata.extractLsb' 0 32) = false ∧
      (parsing .finished 32 true true 0x30).wdata.extractLsb' 0 32 ≠ 0x7D#32) := by decide

theorem witness_ErrorIsTerminalForTheParse : (parsing .error 7 false false 0).parser.pst = .error := rfl

theorem witness_ParseEndDeliversTheValue :
    (parsedP3.parser.pst = .finished ∧ parsedP3.parser.pbo = parsedP3.parser.pbc) ∧
    ¬ ((parsing .finished 32 true false 0).parser.pst = .finished ∧
      (parsing .finished 32 true false 0).parser.pbo = (parsing .finished 32 true false 0).parser.pbc) := by decide

/-- `n` pairs of digits `0` more. -/
def zeroPairs : Nat → List Word
  | 0 => [0x30#32, 0x30#32]
  | n + 1 => 0x30#32 :: 0x30#32 :: ([] ++ zeroPairs n)

/-- Their bytes. -/
def zeroBytes : Nat → List Byte
  | 0 => [BitVec.ofNat 8 (16 * 0 + 0)]
  | n + 1 => BitVec.ofNat 8 (16 * 0 + 0) :: zeroBytes n

/-- Sixteen bytes 00, the digits `0` in pairs, one hyphen after the first byte; between braces too. -/
theorem witness_ParserAcceptsExactlyTheDialects_accepts :
    Spells State.reset.cfg (zeroBytes 15) (0x30#32 :: 0x30#32 :: ([0x2D#32] ++ zeroPairs 14)) ∧
    Spells State.reset.cfg (zeroBytes 15) ([0x20#32] ++ [0x7B#32] ++ [] ++ zeroPairs 15 ++ [] ++ [0x7D#32] ++ []) := by
  have h0 : HexDigit 0x30#32 0 := by unfold HexDigit; decide
  have hnil : WsRun State.reset.cfg [] := by intro _ h; cases h
  have hspace : WsRun State.reset.cfg [0x20#32] := by intro c h; rw [List.mem_singleton.1 h]; decide
  have hnone : SeparatorRun State.reset.cfg [] := by intro _ h; cases h
  have hyphen : SeparatorRun State.reset.cfg [0x2D#32] := fun c hc => Or.inl (List.mem_singleton.1 hc)
  have hpairs : ∀ n, DigitPairs State.reset.cfg (zeroBytes n) (zeroPairs n) := by
    intro n
    induction n with
    | zero => exact DigitPairs.last _ _ _ _ h0 h0
    | succ n ih => exact DigitPairs.more _ _ _ _ _ _ _ h0 h0 hnone ih
  refine ⟨⟨by decide, [], _, [], hnil, DigitPairs.more _ _ _ _ _ _ _ h0 h0 hyphen (hpairs 14), hnil, Or.inl ?_⟩,
    ⟨by decide, [0x20#32], _, [], hspace, hpairs 15, hnil, Or.inr ⟨[], [], hnil, hnil, rfl⟩⟩⟩
  simp only [List.nil_append, List.append_nil]

/-- The empty text spells nothing. -/
theorem witness_ParserAcceptsExactlyTheDialects_rejects : ¬ ∃ bytes, Spells State.reset.cfg bytes [] := by
  rintro ⟨bytes, hlen, before, body, after, _, hbody, _, h | ⟨inner, inner', _, _, h⟩⟩
  · have hb : body = [] := by
      have := congrArg List.length h
      simp only [List.length_nil, List.length_append] at this
      exact List.eq_nil_of_length_eq_zero (by omega)
    subst hb
    cases hbody
  · have := congrArg List.length h
    simp at this

theorem witness_EqualityComparesAllBytes :
    (∀ i < 16, byteAt namespaces.u[0] i = byteAt namespaces.u[0] i) ∧ byteAt namespaces.u[0] 3 ≠ byteAt namespaces.u[1] 3 ∧
    byteAt (1 : Ident) 15 ≠ byteAt (0 : Ident) 15 := by decide

theorem witness_ComparisonIsLexicographic :
    (∀ i < 16, byteAt dns i = byteAt dns i) ∧
    ((∀ j < 3, byteAt dns j = byteAt url j) ∧ (byteAt dns 3).toNat < (byteAt url 3).toNat) ∧
    ((∀ j < 15, byteAt (1 : Ident) j = byteAt (0 : Ident) j) ∧ (byteAt (0 : Ident) 15).toNat < (byteAt (1 : Ident) 15).toNat) := by
  decide

/-- The premises of transitivity: U0 is not greater than U1, nor U1 than U2. -/
theorem witness_ComparisonIsATotalOrder :
    (((response (.uCmp 0 1) namespaces).map fun r => decide (r.rdata.toInt ≤ 0)) = some true) ∧
    (((response (.uCmp 1 2) namespaces).map fun r => decide (r.rdata.toInt ≤ 0)) = some true) := by decide

theorem witness_FormatAnswersTheCanonicalText :
    35 < (36#8).toNat ∧ (8#8).toNat ∈ [8, 13, 18, 23] ∧ (23#8).toNat ∈ [8, 13, 18, 23] ∧
    digitPositions[0]? = some (0#8).toNat ∧ digitPositions[31]? = some (35#8).toNat := by decide

theorem witness_ReadCommandsChangeNoState : isRead (.uRd128 3) = true ∧ isRead (.shaRdb 20) = true := by decide

theorem witness_CommandsTouchOnlyWhatTheyWrite :
    writesSha .pChar = false ∧ writesParser .shaAppend = false ∧ Instr.uMov 1 2 ≠ .coreReset ∧
    destination (.uMov 1 2) ≠ some 2 := by decide

/-- A state in mid-parse with a hex digit pending meets the invariant and takes a step. -/
theorem witness_EveryStepKeepsTheInvariant :
    ({ parsing .parsing 31 true false 0 with inbox := [command .pChar 0x61] } : State).Inv ∧
    ∃ t, step { parsing .parsing 31 true false 0 with inbox := [command .pChar 0x61] } = .next t :=
  ⟨⟨by decide, ⟨⟨by decide, by decide⟩, by decide, by decide⟩⟩, _, rfl⟩

/-- Two states that differ in bytes of `BUF` behind the count. -/
theorem witness_BufferBeyondTheCountIsUnobservable :
    (buffered 2).SameVisible { buffered 2 with sha := { (buffered 2).sha with buf := (buffered 2).sha.buf.set 2 0xFF#8 }, draws := 9 } ∧
    (buffered 2).sha.buf ≠ (buffered 2).sha.buf.set 2 0xFF#8 :=
  ⟨⟨⟨rfl, rfl, rfl, rfl, by decide⟩, rfl, rfl, rfl, rfl, rfl, rfl⟩, by decide⟩

end Sys2Proof.Tests
end

section
/-! PROOF. O6: a step executes the decoded command (00_scope.md R13, 30_encoding.md R70). -/

namespace Sys2Proof

/-- The table decoder, read off the decoder of command words. -/
theorem decodeTableWord_eq_some_iff {nbits w : Nat} {i : Instr} :
    decodeTableWord nbits w = some i ↔ decode (BitVec.ofNat 32 (w % 2 ^ nbits)) = .instr i := by
  unfold decodeTableWord
  cases decode (BitVec.ofNat 32 (w % 2 ^ nbits)) <;> simp

namespace Machine

/-- For a row of 32 bits no bit is left above the command word, so the write data is 0 (log 2). -/
theorem actionOfBits_32 (n : Nat) :
    actionOfBits 32 n = .command (BitVec.ofNat 32 (n % 2 ^ 32)) 0 := by
  simp [actionOfBits]

/-- A command whose word decodes is executed with its data on the bus (R70). -/
theorem runAction_command_instr {w : Word} {i : Instr} (h : decode w = .instr i) (d : Ident) (s : State) :
    runAction (.command w d) s = exec i (s.present d) :=
  runCommand_instr w i (s.present d) h

/-- The word that `withFetchWord` places is taken by the next step, and the actions already pending stay. -/
theorem step_withFetchWord (s : State) (nbits w : Nat) :
    step (s.withFetchWord nbits w) = runAction (actionOfBits nbits w) s :=
  step_enqueueFirst s (actionOfBits nbits w) []

/-- Settles O6: the step hands the first pending action to `runAction`, which executes what its word decodes to; a 32-bit word
placed by `withFetchWord` is such an action with data 0. -/
theorem stepExecutesTheDecodedCommand : Obligations.StepExecutesTheDecodedCommand := by
  refine ⟨fun w i d rest s h => ?command, fun n i s _ h => ?fetched, step_nil⟩
  case command =>
    calc step { s with inbox := .command w d :: rest }
        = runAction (.command w d) { s with inbox := rest } := step_cons _ _ rest rfl
      _ = exec i { s with inbox := rest, wdata := d } := runAction_command_instr h d _
  case fetched =>
    calc step (s.withFetchWord 32 n)
        = runAction (.command (BitVec.ofNat 32 (n % 2 ^ 32)) 0) s := by rw [step_withFetchWord, actionOfBits_32]
      _ = exec i { s with wdata := 0 } := runAction_command_instr (decodeTableWord_eq_some_iff.mp h) 0 s

end Machine
end Sys2Proof
end

section
/-! SUPPORT. SHA-1 units that differ only in `BUF` from `NBUF` on (10_state.md R22): every operation keeps them so. -/

namespace Sys2Proof.Machine

theorem Sha1Unit.SameMessage.refl (m : Sha1Unit) : m.SameMessage m := ⟨rfl, rfl, rfl, rfl, fun _ _ => rfl⟩

/-- Units that received the same message since the same block boundary differ only behind `NBUF`. -/
theorem Sha1Unit.Holds.sameMessage {m n : Sha1Unit} {h0 : Vector Word 5} {k0 : BitVec 64} {msg : List Byte}
    (hm : m.Holds h0 k0 msg) (hn : n.Holds h0 k0 msg) (hfin : m.fin = n.fin) : m.SameMessage n where
  h := hm.h.trans hn.h.symm
  nblk := hm.nblk.trans hn.nblk.symm
  nbuf := BitVec.eq_of_toNat_eq (hm.nbuf.trans hn.nbuf.symm)
  fin := hfin
  buf i hi := by
    rw [hm.nbuf] at hi
    rw [hm.buf i hi, hn.buf i hi]

/-- A unit that differs only behind `NBUF` holds the same message. -/
theorem Sha1Unit.SameMessage.holds {m n : Sha1Unit} (h : m.SameMessage n) {h0 : Vector Word 5} {k0 : BitVec 64} {msg : List Byte}
    (hm : m.Holds h0 k0 msg) : n.Holds h0 k0 msg where
  h := h.h.symm.trans hm.h
  nblk := h.nblk.symm.trans hm.nblk
  nbuf := h.nbuf ▸ hm.nbuf
  buf i hi := (h.buf i (hm.nbuf ▸ hi)).symm.trans (hm.buf i hi)

theorem appendAll_sameMessage {m n : Sha1Unit} (h : m.SameMessage n) (bs : List Byte) :
    (appendAll m bs).SameMessage (appendAll n bs) := by
  have hm := holds_bufferedBytes m
  exact (appendAll_holds _ _ _ _ bs hm).sameMessage (appendAll_holds _ _ _ _ bs (h.holds hm)) (by simp [h.fin])

theorem loadIv_sameMessage (m n : Sha1Unit) : (loadIv m).SameMessage (loadIv n) :=
  (loadIv_holds m).sameMessage (loadIv_holds n) rfl

/-- The padding depends on the counters alone. -/
theorem finishBytes_sameMessage {m n : Sha1Unit} (h : m.SameMessage n) : finishBytes m = finishBytes n := by
  simp only [finishBytes, bitLength, h.nblk, h.nbuf]

theorem finishUnit_sameMessage {m n : Sha1Unit} (h : m.SameMessage n) : (finishUnit m).SameMessage (finishUnit n) := by
  cases hm : m.fin with
  | true => rwa [finishUnit_of_fin m hm, finishUnit_of_fin n (h.fin ▸ hm)]
  | false =>
    rw [finishUnit_eq m hm, finishUnit_eq n (h.fin ▸ hm), ← finishBytes_sameMessage h]
    have ha := appendAll_sameMessage h (finishBytes m)
    exact ⟨ha.h, ha.nblk, ha.nbuf, rfl, ha.buf⟩

end Sys2Proof.Machine
end

section
/-! SUPPORT. What every command, every step and every run does, said once: the unit each command writes, the registers it keeps, its one
response; and that none of it depends on what no command looks at (10_state.md R20 to R34). -/

open Sys2Proof.Claims

namespace Sys2Proof.Machine

/-- The SHA-1 unit after a command (R25; 40_sha1.md R101 to R103, 42_uuid_generate.md R172, R173). -/
def shaAfter (i : Instr) (s : State) : Sha1Unit :=
  match i with
  | .coreReset => s.resetUnits.sha
  | .shaInit => loadIv s.sha
  | .shaAppend => if s.sha.fin then s.sha else appendRaw s.sha s.dataByte
  | .shaFinish | .n5End _ => finishUnit s.sha
  | .n5Begin rs => appendAll (loadIv s.sha) (identBytes (s.readU rs))
  | _ => s.sha

/-- The parser after a command (R34; 43_uuid_parse.md R189, R190). -/
def parserAfter (i : Instr) (s : State) : ParserUnit :=
  match i with
  | .coreReset | .pStart => State.reset.parser
  | .pChar => parserStep (classify s.cfg s.codePoint) s.parser
  | _ => s.parser

/-- The draw counter after a command: CORE.RESET alone draws (log 6). -/
def drawsAfter (i : Instr) (s : State) : Nat :=
  match i with
  | .coreReset => s.draws + 1
  | _ => s.draws

/-- The state after a command that leaves the registers `u` and gives the response `r`. -/
def State.after (s : State) (i : Instr) (u : Vector Ident 4) (r : Response) : State :=
  { s with sha := shaAfter i s, u := u, parser := parserAfter i s, draws := drawsAfter i s, out := r :: s.out }

/-- Every register but the destination stays (R28); CORE.RESET writes all four. -/
def RegistersKept (i : Instr) (u u' : Vector Ident 4) : Prop :=
  i ≠ .coreReset → ∀ r : UReg, destination i ≠ some r → u'[r] = u[r]

theorem registersKept_same (i : Instr) (u : Vector Ident 4) : RegistersKept i u u := fun _ _ _ => rfl

theorem registersKept_set {i : Instr} {rd : UReg} (hd : destination i = some rd) (u : Vector Ident 4) (v : Ident) :
    RegistersKept i u (u.set rd v) := by
  intro _ r hr
  exact Vector.getElem_set_ne _ _ fun e => hr (hd.trans (congrArg some (Fin.ext e)))

/-- The state with other contents where no command looks. -/
def State.withHidden (s : State) (b : Vector Byte 64) (o : List Response) (d : Nat) : State :=
  { s with sha := { s.sha with buf := b }, out := o, draws := d }

/-- The meaning `f` of the command `i` does the same in `s` and in `s` with other hidden contents: it leaves the same registers, of which
only the destination is written, and gives the same response; the units are those of `State.after`. -/
def ActsAlike (i : Instr) (s : State) (b : Vector Byte 64) (o : List Response) (d : Nat) (f : State → Result) : Prop :=
  ∃ u r, RegistersKept i s.u u ∧ f s = .next (s.after i u r) ∧ f (s.withHidden b o d) = .next ((s.withHidden b o d).after i u r)

theorem shaAfter_shaAppend_of_fin {s : State} (h : s.sha.fin = true) : shaAfter .shaAppend s = s.sha := if_pos h

theorem shaAfter_shaAppend_of_not_fin {s : State} (h : s.sha.fin = false) :
    shaAfter .shaAppend s = appendRaw s.sha s.dataByte := if_neg (by simp [h])

theorem shaAfter_of_not_writesSha {i : Instr} (h : writesSha i = false) (s : State) : shaAfter i s = s.sha := by
  cases i with
  | coreReset | shaInit | shaAppend | shaFinish | n5Begin _ | n5End _ => cases h
  | _ => rfl

theorem parserAfter_of_not_writesParser {i : Instr} (h : writesParser i = false) (s : State) : parserAfter i s = s.parser := by
  cases i with
  | coreReset | pStart | pChar => cases h
  | _ => rfl

theorem drawsAfter_of_ne_coreReset {i : Instr} (h : i ≠ .coreReset) (s : State) : drawsAfter i s = s.draws := by
  cases i with
  | coreReset => exact absurd rfl h
  | _ => rfl

section
variable {i : Instr} {s : State} {b : Vector Byte 64} {o : List Response} {d : Nat}

/-- A command that writes no unit and no register leaves its response and nothing else. -/
theorem after_eq_answer (hs : writesSha i = false) (hp : writesParser i = false) (s : State) (st : Status) (v : Ident) :
    s.after i s.u ⟨st, v⟩ = s.answer st v := by
  have hi : i ≠ .coreReset := by rintro rfl; cases hs
  simp only [State.after, shaAfter_of_not_writesSha hs, parserAfter_of_not_writesParser hp, drawsAfter_of_ne_coreReset hi, State.answer]

/-- Two meanings that give the same response and change nothing act alike. -/
theorem ActsAlike.of_answer {f : State → Result} (hs : writesSha i = false) (hp : writesParser i = false) (st : Status) (v : Ident)
    (h : f s = .next (s.answer st v)) (h' : f (s.withHidden b o d) = .next ((s.withHidden b o d).answer st v)) :
    ActsAlike i s b o d f :=
  ⟨s.u, ⟨st, v⟩, registersKept_same i s.u, h.trans (congrArg _ (after_eq_answer hs hp s st v).symm),
    h'.trans (congrArg _ (after_eq_answer hs hp (s.withHidden b o d) st v).symm)⟩

theorem ActsAlike.raise (hs : writesSha i = false) (hp : writesParser i = false) (st : Status) :
    ActsAlike i s b o d (raise st) :=
  .of_answer hs hp st 0 rfl rfl

theorem ActsAlike.withIndex {last : Nat} {idx : Byte} {body : State → Result} (hs : writesSha i = false)
    (hp : writesParser i = false) (h : ActsAlike i s b o d body) : ActsAlike i s b o d (withIndex last idx body) := by
  by_cases hidx : idx.toNat ≤ last
  · rwa [show Machine.withIndex last idx body = body from funext fun s => withIndex_ok last idx body s hidx]
  · rw [show Machine.withIndex last idx body = Machine.raise .illegalCmd from
      funext fun s => withIndex_illegal last idx body s (Nat.lt_of_not_le hidx)]
    exact .raise hs hp .illegalCmd

theorem ActsAlike.readDigest (hs : writesSha i = false) (hp : writesParser i = false) (view : Vector Word 5 → Ident) :
    ActsAlike i s b o d (readDigest view) := by
  cases hfin : s.sha.fin with
  | true => exact .of_answer hs hp .ok (view s.sha.h) (readDigest_finished view s hfin) (readDigest_finished view _ hfin)
  | false => exact .of_answer hs hp .notFinished 0 (readDigest_unfinished view s hfin) (readDigest_unfinished view _ hfin)

end

/-- Every command acts alike in two states that differ only where no command looks. -/
theorem exec_actsAlike (i : Instr) (s : State) (b : Vector Byte 64) (o : List Response) (d : Nat)
    (hb : s.sha.SameMessage { s.sha with buf := b }) : ActsAlike i s b o d (exec i) := by
  cases i with
  | coreReset => exact ⟨_, _, fun h => absurd rfl h, rfl, rfl⟩
  | shaInit | shaAppend | shaFinish | shaStat | uRd128 _ | uVariant _ | uVersion _ | uEq _ _ | uCmp _ _ | pStart | pChar
  | pStat => exact ⟨_, _, registersKept_same _ _, rfl, rfl⟩
  | uNil rd | uMov rd _ | uWr128 rd | uGen4 rd => exact ⟨_, _, registersKept_set rfl _ _, rfl, rfl⟩
  | n5Begin rs =>
    refine ⟨s.u, ⟨.ok, 0⟩, registersKept_same _ _, ?_, ?_⟩
    · simp only [exec, execN5Begin, respond_eq, State.after, State.answer, shaAfter, parserAfter, drawsAfter]
    · simp only [exec, execN5Begin, respond_eq, State.after, State.answer, shaAfter, parserAfter, drawsAfter, State.withHidden]
  | n5End rd =>
    have hdigest : (finishUnit (s.withHidden b o d).sha).h = (finishUnit s.sha).h := (finishUnit_sameMessage hb).h.symm
    refine ⟨_, _, registersKept_set rfl _ _, rfl, ?_⟩
    simp only [exec, execN5End, hdigest]
    rfl
  | shaRdw idx | shaRdb idx | shaRdhex idx => exact .withIndex rfl rfl (.readDigest rfl rfl _)
  | uRdb rs idx | uFmtc rs idx => exact .withIndex rfl rfl ⟨_, _, registersKept_same _ _, rfl, rfl⟩
  | uWrb rd idx | uLdns rd idx => exact .withIndex rfl rfl ⟨_, _, registersKept_set rfl _ _, rfl, rfl⟩
  | uWrf rd idx =>
    show ActsAlike _ s b o d (execUWrf rd idx)
    unfold execUWrf
    cases fieldOf idx with
    | some f => exact ⟨_, _, registersKept_set rfl _ _, rfl, rfl⟩
    | none => exact .raise rfl rfl _
  | uRdf rs idx =>
    show ActsAlike _ s b o d (execURdf rs idx)
    unfold execURdf
    cases fieldOf idx with
    | some f => exact ⟨_, _, registersKept_same _ _, rfl, rfl⟩
    | none => exact .raise rfl rfl _
  | pEnd rd =>
    by_cases h : s.parser.accepts = true
    · exact ⟨_, _, registersKept_set rfl _ _, if_pos h, if_pos h⟩
    · exact ⟨_, _, registersKept_same _ _, if_neg h, if_neg h⟩

/-- What a command does, in any state. -/
theorem exec_eq_after (i : Instr) (s : State) : ∃ u r, RegistersKept i s.u u ∧ exec i s = .next (s.after i u r) := by
  obtain ⟨u, r, hu, hs, -⟩ := exec_actsAlike i s s.sha.buf s.out s.draws (.refl _)
  exact ⟨u, r, hu, hs⟩

/-- What one step can do: nothing, the reset input, IllegalCmd, or a command. -/
inductive StepsTo (s : State) : State → Prop
  | idle (h : s.inbox = []) : StepsTo s s
  | reset (rest : List HostAction) (h : s.inbox = .reset :: rest) : StepsTo s { s with inbox := rest }.resetUnits
  | illegal (w : Word) (d : Ident) (rest : List HostAction) (e : DecodeError) (h : s.inbox = .command w d :: rest)
      (hw : decode w = .illegal e) : StepsTo s ({ s with inbox := rest }.present d |>.answer .illegalCmd 0)
  | command (w : Word) (d : Ident) (rest : List HostAction) (i : Instr) (u : Vector Ident 4) (r : Response)
      (h : s.inbox = .command w d :: rest) (hw : decode w = .instr i) (hu : RegistersKept i s.u u) :
      StepsTo s ({ s with inbox := rest }.present d |>.after i u r)

/-- Every step completes, in one of these ways. -/
theorem step_stepsTo (s : State) : ∃ t, step s = .next t ∧ StepsTo s t := by
  cases h : s.inbox with
  | nil => exact ⟨s, step_nil s h, .idle h⟩
  | cons a rest =>
    cases a with
    | reset => exact ⟨_, step_cons s .reset rest h, .reset rest h⟩
    | command w d =>
      have hstep := step_cons s (.command w d) rest h
      cases hw : decode w with
      | illegal e => exact ⟨_, hstep.trans (runCommand_illegal w e _ hw), .illegal w d rest e h hw⟩
      | instr i =>
        obtain ⟨u, r, hu, he⟩ := exec_eq_after i ({ s with inbox := rest }.present d)
        exact ⟨_, (hstep.trans (runCommand_instr w i _ hw)).trans he, .command w d rest i u r h hw hu⟩

/-! ### Runs -/

theorem run_succ {n : Nat} {s t : State} (h : step s = .next t) : Sys2Proof.core.run (n + 1) s = Sys2Proof.core.run n t := by
  simp only [Host.Core.run]
  rw [show Sys2Proof.core.step s = .next t from h]

theorem runAll_command {i : Instr} {d : Ident} {s t : State} (hi : decode (encode i) = .instr i)
    (h : exec i (s.present d) = .next t) (as : List HostAction) : runAll (command i d :: as) s = runAll as t :=
  runAll_cons _ as s t ((runAction_command_instr hi d s).trans h)

end Sys2Proof.Machine
end

section
/-! PROOF. O55: the bytes of `BUF` from `NBUF` on are never observable (10_state.md R22). -/

namespace Sys2Proof.Machine

/-- A state that looks the same is the state with other contents where no command looks. -/
theorem State.SameVisible.eq_withHidden {s t : State} (h : s.SameVisible t) : t = s.withHidden t.sha.buf t.out t.draws := by
  obtain ⟨⟨hh, hnblk, hnbuf, hfin, -⟩, hu, hparser, hcfg, hinbox, hwdata, -⟩ := h
  simp only [State.withHidden, hh, hnblk, hnbuf, hfin, hu, hparser, hcfg, hinbox, hwdata]

theorem shaAfter_sameMessage (i : Instr) {s t : State} (h : s.SameVisible t) : (shaAfter i s).SameMessage (shaAfter i t) := by
  cases i with
  | coreReset => exact loadIv_sameMessage s.resetUnits.sha t.resetUnits.sha
  | shaInit => exact loadIv_sameMessage s.sha t.sha
  | shaFinish | n5End _ => exact finishUnit_sameMessage h.sha
  | n5Begin rs =>
    simp only [shaAfter, State.readU, h.u]
    exact appendAll_sameMessage (loadIv_sameMessage s.sha t.sha) _
  | shaAppend =>
    simp only [shaAfter, State.dataByte, h.wdata, h.sha.fin]
    split
    · exact h.sha
    · exact appendAll_sameMessage h.sha [t.wdata.setWidth 8]
  | _ => exact h.sha

theorem parserAfter_sameVisible (i : Instr) {s t : State} (h : s.SameVisible t) : parserAfter i s = parserAfter i t := by
  simp only [parserAfter, State.codePoint, h.cfg, h.wdata, h.parser]

theorem exec_sameVisible (i : Instr) {s t : State} (h : s.SameVisible t) :
    ∃ s' t', exec i s = .next s' ∧ exec i t = .next t' ∧ s'.SameVisible t' := by
  obtain ⟨u, r, -, hs, ht⟩ := exec_actsAlike i s t.sha.buf t.out t.draws ⟨rfl, rfl, rfl, rfl, h.sha.buf⟩
  rw [← h.eq_withHidden] at ht
  exact ⟨_, _, hs, ht, shaAfter_sameMessage i h, rfl, parserAfter_sameVisible i h, h.cfg, h.inbox, h.wdata,
    congrArg (r :: ·) h.out⟩

theorem runAction_sameVisible (a : HostAction) {s t : State} (h : s.SameVisible t) :
    ∃ s' t', runAction a s = .next s' ∧ runAction a t = .next t' ∧ s'.SameVisible t' := by
  cases a with
  | reset =>
    exact ⟨_, _, rfl, rfl, loadIv_sameMessage s.resetUnits.sha t.resetUnits.sha, rfl, rfl, h.cfg, h.inbox, h.wdata, h.out⟩
  | command w d =>
    have hd : (s.present d).SameVisible (t.present d) := ⟨h.sha, h.u, h.parser, h.cfg, h.inbox, rfl, h.out⟩
    cases hw : decode w with
    | instr i =>
      simp only [runAction_command_instr hw]
      exact exec_sameVisible i hd
    | illegal e =>
      exact ⟨_, _, runCommand_illegal w e _ hw, runCommand_illegal w e _ hw, hd.sha, hd.u, hd.parser, hd.cfg, hd.inbox, rfl,
        congrArg (_ :: ·) hd.out⟩

/-- Settles O55: the two states take the same action, and no action looks behind `NBUF`: a byte is written there before it is counted, and
the reset and the IV load count none. -/
theorem bufferBeyondTheCountIsUnobservable : Obligations.BufferBeyondTheCountIsUnobservable := by
  intro s t h
  cases hin : s.inbox with
  | nil => exact ⟨s, t, step_nil s hin, step_nil t (h.inbox ▸ hin), h⟩
  | cons a rest =>
    rw [step_cons s a rest hin, step_cons t a rest (h.inbox ▸ hin)]
    exact runAction_sameVisible a ⟨h.sha, h.u, h.parser, h.cfg, rfl, h.wdata, h.out⟩

end Sys2Proof.Machine
end

section
/-! PROOF. O53, O54: the invariant of the SHA-1 unit and of the parser (10_state.md R24, R26, R32 to R34, R39). -/

namespace Sys2Proof.Machine

/-! ### The SHA-1 unit (R24, R26) -/

/-- 0x80, the zeros and the length fill the last block. -/
theorem finishUnit_inv {m : Sha1Unit} (h : m.Inv) : (finishUnit m).Inv := by
  intro _
  cases hm : m.fin with
  | true => rw [finishUnit_of_fin m hm]; exact h hm
  | false =>
    have hlt := m.nbuf.isLt
    have hlen : (finishBytes m).length = 9 + (119 - m.nbuf.toNat) % 64 := by simp [finishBytes]; omega
    have hn := appendAll_nbuf m (finishBytes m)
    rw [finishUnit_eq m hm]
    apply BitVec.eq_of_toNat_eq
    show (appendAll m (finishBytes m)).nbuf.toNat = 0
    omega

theorem inv_of_not_fin {m : Sha1Unit} (h : m.fin = false) : m.Inv := by simp [Sha1Unit.Inv, h]

theorem shaAfter_inv (i : Instr) {s : State} (h : s.sha.Inv) : (shaAfter i s).Inv := by
  cases i with
  | coreReset | shaInit => exact inv_of_not_fin rfl
  | n5Begin rs => exact inv_of_not_fin (appendAll_fin (loadIv s.sha) _)
  | shaFinish | n5End _ => exact finishUnit_inv h
  | shaAppend =>
    cases hfin : s.sha.fin with
    | true => rwa [shaAfter_shaAppend_of_fin hfin]
    | false =>
      rw [shaAfter_shaAppend_of_not_fin hfin]
      exact inv_of_not_fin ((appendRaw_fin s.sha _).trans hfin)
  | _ => exact h

/-! ### The parser (R32, R33, R34) -/

theorem ParserUnit.CountOk.le {p : ParserUnit} (h : p.CountOk) : p.pdig.toNat ≤ 32 := by
  unfold CountOk at h
  split at h
  · simp [h]
  · omega
  · simp [h]
  · exact h

theorem ParserUnit.fail_inv {p : ParserUnit} (h : p.Inv) : p.fail.Inv := by
  obtain ⟨hcount, hbrace, hzero⟩ := h
  exact ⟨hcount.le, hbrace, hzero⟩

/-- The parser with one more digit, as both INITIAL and PARSING take it (43_uuid_parse.md R191, R192). -/
def ParserUnit.addDigit (p : ParserUnit) (v : BitVec 4) : ParserUnit :=
  { p with
    pbuf := writeDigit p.pbuf p.pdig.toNat v
    pdig := p.pdig + 1
    pst := if p.pdig + 1 = 32 then .finished else .parsing }

theorem ParserUnit.addDigit_inv {p : ParserUnit} (h : p.Inv) (hlt : p.pdig.toNat ≤ 31) (v : BitVec 4) : (p.addDigit v).Inv := by
  obtain ⟨-, hbrace, hzero⟩ := h
  have hsucc : (p.pdig + 1).toNat = p.pdig.toNat + 1 := by rw [BitVec.toNat_add]; show (_ + 1) % 64 = _; omega
  refine ⟨?count, fun hc => ?brace, fun k hk hle => ?zero⟩
  case count =>
    by_cases h32 : p.pdig + 1 = 32
    · simp only [CountOk, addDigit, h32, if_true]
    · have hne : (p.pdig + 1).toNat ≠ 32 := fun e => h32 (BitVec.eq_of_toNat_eq e)
      simp only [CountOk, addDigit, h32, if_false]
      omega
  case brace =>
    have h32 : p.pdig.toNat = 32 := congrArg BitVec.toNat (hbrace hc).2
    omega
  case zero =>
    have hle : (p.pdig + 1).toNat ≤ k := hle
    show bufferDigit (writeDigit p.pbuf p.pdig.toNat v) k = 0
    rw [bufferDigit_writeDigit _ _ _ _ (by omega) hk, if_neg (by omega)]
    exact hzero k hk (by omega)

theorem stepInitial_hex {p : ParserUnit} (h : p.pdig = 0) (v : BitVec 4) : stepInitial (.hex v) p = p.addDigit v := by
  simp [stepInitial, ParserUnit.addDigit, h]

theorem stepInitial_inv (c : CharClass) {p : ParserUnit} (hp : p.pst = .initial) (h : p.Inv) : (stepInitial c p).Inv := by
  have ⟨hcount, hbrace, hzero⟩ := h
  have hdig : p.pdig = 0 := by simpa [ParserUnit.CountOk, hp] using hcount
  cases c with
  | ws => exact h
  | openBrace =>
    simp only [stepInitial]
    split
    · exact p.fail_inv h
    · exact ⟨hcount, fun hc => ⟨rfl, (hbrace hc).2⟩, hzero⟩
  | hex v =>
    rw [stepInitial_hex hdig]
    exact p.addDigit_inv h (by simp [hdig]) v
  | hyphen | closeBrace | other => exact p.fail_inv h

theorem stepParsing_inv (c : CharClass) {p : ParserUnit} (hp : p.pst = .parsing) (h : p.Inv) : (stepParsing c p).Inv := by
  have hdig : 1 ≤ p.pdig.toNat ∧ p.pdig.toNat ≤ 31 := by simpa only [ParserUnit.CountOk, hp] using h.1
  cases c with
  | hex v => exact p.addDigit_inv h hdig.2 v
  | hyphen | ws =>
    simp only [stepParsing]
    split
    · exact h
    · exact p.fail_inv h
  | openBrace | closeBrace | other => exact p.fail_inv h

theorem stepFinished_inv (c : CharClass) {p : ParserUnit} (hp : p.pst = .finished) (h : p.Inv) : (stepFinished c p).Inv := by
  have ⟨hcount, _, hzero⟩ := h
  have hdig : p.pdig = 32 := by simpa [ParserUnit.CountOk, hp] using hcount
  cases c with
  | ws => exact h
  | closeBrace =>
    simp only [stepFinished]
    split
    next hopen =>
      have hpbo : p.pbo = true := (Bool.and_eq_true_iff.mp hopen).1
      exact ⟨hcount, fun _ => ⟨hpbo, hdig⟩, hzero⟩
    · exact p.fail_inv h
  | hex _ | hyphen | openBrace | other => exact p.fail_inv h

theorem parserStep_inv (c : CharClass) {p : ParserUnit} (h : p.Inv) : (parserStep c p).Inv := by
  cases hp : p.pst with
  | initial => simpa only [parserStep, hp] using stepInitial_inv c hp h
  | parsing => simpa only [parserStep, hp] using stepParsing_inv c hp h
  | finished => simpa only [parserStep, hp] using stepFinished_inv c hp h
  | error => simpa only [parserStep, hp] using h

theorem reset_parser_inv : State.reset.parser.Inv := ⟨rfl, by decide, by decide⟩

theorem parserAfter_inv (i : Instr) {s : State} (h : s.parser.Inv) : (parserAfter i s).Inv := by
  cases i with
  | coreReset | pStart => exact reset_parser_inv
  | pChar => exact parserStep_inv _ h
  | _ => exact h

/-! ### The machine -/

theorem after_inv (i : Instr) {s : State} (u : Vector Ident 4) (r : Response) (h : s.Inv) : (s.after i u r).Inv :=
  ⟨shaAfter_inv i h.1, parserAfter_inv i h.2⟩

/-- Settles O53: a step is idle, a reset, an IllegalCmd or a command; the first and the third change neither unit, a reset gives both
their reset values, and a command leaves of each unit what `shaAfter_inv` and `parserAfter_inv` speak of. -/
theorem everyStepKeepsTheInvariant : Obligations.EveryStepKeepsTheInvariant := by
  intro s t h hstep
  obtain ⟨t', hstep', hto⟩ := step_stepsTo s
  obtain rfl : t = t' := by simpa [hstep] using hstep'
  have ⟨hsha, hparser⟩ := h
  cases hto with
  | idle _ => exact h
  | reset rest _ => exact ⟨inv_of_not_fin rfl, reset_parser_inv⟩
  | illegal w d rest e _ _ => exact ⟨hsha, hparser⟩
  | command w d rest i u r _ _ _ => exact after_inv i u r ⟨hsha, hparser⟩

/-- Settles O54: `FIN` is 0 and the parser is that of P.START. -/
theorem resetMeetsTheInvariant : Obligations.ResetMeetsTheInvariant := ⟨inv_of_not_fin rfl, reset_parser_inv⟩

end Sys2Proof.Machine
end

section
/-! PROOF. O22, O52: which command writes what (10_state.md R21, R25, R28, R34). -/

open Sys2Proof.Claims

namespace Sys2Proof.Machine

/-- Settles O22, by the SHA-1 unit each command leaves. -/
theorem finIsWrittenByFiveCommands : Obligations.FinIsWrittenByFiveCommands := by
  intro i s
  obtain ⟨u, r, -, he⟩ := exec_eq_after i s
  refine ⟨_, he, ?_⟩
  show (shaAfter i s).fin = _
  cases i with
  | shaFinish | n5End _ => exact finishUnit_fin s.sha
  | n5Begin rs => exact appendAll_fin (loadIv s.sha) _
  | shaAppend =>
    cases hfin : s.sha.fin with
    | true => rwa [shaAfter_shaAppend_of_fin hfin]
    | false => rwa [shaAfter_shaAppend_of_not_fin hfin, appendRaw_fin]
  | _ => rfl

/-- Settles O52: what a command leaves is `State.after`, whose fields say the frame. -/
theorem commandsTouchOnlyWhatTheyWrite : Obligations.CommandsTouchOnlyWhatTheyWrite := by
  intro i s
  obtain ⟨u, r, hu, he⟩ := exec_eq_after i s
  exact ⟨_, he, fun h => shaAfter_of_not_writesSha h s, fun h => parserAfter_of_not_writesParser h s,
    fun h => ⟨drawsAfter_of_ne_coreReset h s, hu h⟩, rfl, rfl, rfl, r, rfl⟩

end Sys2Proof.Machine
end

section
/-! PROOF. O56: earlier responses and earlier bus values are never read (10_state.md R20). -/

namespace Sys2Proof.Machine

theorem State.withHidden_out (s : State) (o : List Response) : s.withHidden s.sha.buf o s.draws = { s with out := o } := rfl

/-- What a command leaves does not depend on the earlier responses. -/
theorem after_withOut (i : Instr) (s : State) (o : List Response) (u : Vector Ident 4) (r : Response) :
    State.after { s with out := o } i u r = { s.after i u r with out := r :: o } := by
  simp only [State.after, shaAfter, parserAfter, drawsAfter, State.resetUnits, State.readU, State.dataByte, State.codePoint]

theorem exec_withOut (i : Instr) (s : State) (o : List Response) : ∃ t r, exec i s = .next t ∧ t.out = r :: s.out ∧
    exec i { s with out := o } = .next { t with out := r :: o } := by
  obtain ⟨u, r, -, hs, ho⟩ := exec_actsAlike i s s.sha.buf o s.draws (.refl _)
  rw [s.withHidden_out o, after_withOut] at ho
  exact ⟨_, r, hs, rfl, ho⟩

theorem runAction_withOut (a : HostAction) (s : State) (o : List Response) : ∃ t new, runAction a s = .next t ∧
    t.out = new ++ s.out ∧ runAction a { s with out := o } = .next { t with out := new ++ o } := by
  cases a with
  | reset => exact ⟨_, [], rfl, rfl, rfl⟩
  | command w d =>
    cases hw : decode w with
    | illegal e =>
      exact ⟨_, [⟨.illegalCmd, 0⟩], runCommand_illegal w e _ hw, rfl, runCommand_illegal w e _ hw⟩
    | instr i =>
      simp only [runAction_command_instr hw]
      obtain ⟨t, r, hs, hout, ho⟩ := exec_withOut i (s.present d) o
      exact ⟨t, [r], hs, hout, ho⟩

/-- A step adds its responses in front of whatever responses there are, and is otherwise the same. -/
theorem step_withOut (s : State) (o : List Response) : ∃ t new, step s = .next t ∧
    t.out = new ++ s.out ∧ step { s with out := o } = .next { t with out := new ++ o } := by
  by_cases hin : s.inbox = []
  · exact ⟨s, [], step_nil s hin, rfl, step_nil _ hin⟩
  · obtain ⟨a, rest, hin⟩ := List.exists_cons_of_ne_nil hin
    rw [step_cons s a rest hin, step_cons { s with out := o } a rest hin]
    exact runAction_withOut a { s with inbox := rest } o

/-- Settles O56: the responses by `step_withOut`; the bus is overwritten before the command executes. -/
theorem responsesAreNeverRead : Obligations.ResponsesAreNeverRead := by
  refine ⟨step_withOut, fun s w d x rest => ?_⟩
  rw [step_cons _ (.command w d) rest rfl, step_cons _ (.command w d) rest rfl]
  rfl

end Sys2Proof.Machine
end

section
/-! PROOF. O57: no run changes the parameters (10_state.md R38). -/

namespace Sys2Proof.Machine

theorem step_cfg (s : State) : ∃ t, step s = .next t ∧ t.cfg = s.cfg := by
  obtain ⟨t, hstep, hto⟩ := step_stepsTo s
  exact ⟨t, hstep, by cases hto <;> rfl⟩

/-- Settles O57, by induction on the number of steps. -/
theorem parametersAreFixed : Obligations.ParametersAreFixed := by
  intro n
  induction n with
  | zero => exact fun s => ⟨s, rfl, rfl⟩
  | succ n ih =>
    intro s
    obtain ⟨t, hstep, hcfg⟩ := step_cfg s
    obtain ⟨t', hrun, hcfg'⟩ := ih t
    exact ⟨t', (run_succ hstep).trans hrun, hcfg'.trans hcfg⟩

end Sys2Proof.Machine
end

section
/-! PROOF. O17: `NBLK` and `NBUF` count the message (10_state.md R23, R24, R26; 40_sha1.md R119). -/

namespace Sys2Proof.Machine

/-- An unfinished unit takes the bytes of SHA.APPENDN in order (40_sha1.md R102). -/
theorem runAll_pseudoAppendN (msg : List Byte) (s : State) (hfin : s.sha.fin = false) :
    ∃ t, runAll (pseudoAppendN msg) s = .next t ∧ t.sha = appendAll s.sha msg := by
  induction msg generalizing s with
  | nil => exact ⟨s, runAll_nil s, rfl⟩
  | cons b bs ih =>
    have hsha : shaAfter .shaAppend (s.present (b.setWidth 128)) = appendRaw s.sha b :=
      (shaAfter_shaAppend_of_not_fin (s := s.present (b.setWidth 128)) hfin).trans (by simp)
    obtain ⟨u, r, -, he⟩ := exec_eq_after .shaAppend (s.present (b.setWidth 128))
    obtain ⟨t, hrun, ht⟩ := ih ((s.present (b.setWidth 128)).after .shaAppend u r) (by simp [State.after, hsha, hfin])
    exact ⟨t, (runAll_command (by decide) he _).trans hrun, ht.trans (congrArg (appendAll · bs) hsha)⟩

theorem runAll_shaInit_appendN (msg : List Byte) (s : State) :
    ∃ t, runAll (command .shaInit :: pseudoAppendN msg) s = .next t ∧ t.sha = appendAll (loadIv s.sha) msg := by
  obtain ⟨t, hrun, ht⟩ := runAll_pseudoAppendN msg ({ s.present 0 with sha := loadIv s.sha }.answer .ok 0) rfl
  exact ⟨t, (runAll_command (by decide) rfl _).trans hrun, ht⟩

/-- Settles O17: after SHA.INIT and the bytes the unit holds the message since the IV, and `Holds` says the two counters. -/
theorem countersCountTheMessage : Obligations.CountersCountTheMessage := by
  intro s msg
  obtain ⟨t, hrun, ht⟩ := runAll_shaInit_appendN msg s
  have hm : t.sha.Holds iv 0 msg := ht ▸ appendAll_holds _ _ _ [] msg (loadIv_holds s.sha)
  refine ⟨t, hrun, ?_, hm.nbuf, ?_⟩
  · rw [hm.nblk]; simp
  · rw [ht, appendAll_fin]; rfl

end Sys2Proof.Machine
end

section
/-! PROOF. O7: the reset values (10_state.md R39, 60_exceptions.md R240, 70_reset_and_hazards.md R255). -/

open Sys2Proof.Claims

namespace Sys2Proof.Machine

/-- The reset values, unit by unit. -/
theorem atReset_of {t : State} (hsha : ∃ b, t.sha = { State.reset.sha with buf := b }) (hu : ∀ r, t.readU r = 0)
    (hparser : t.parser = State.reset.parser) : AtReset t := by
  obtain ⟨b, hsha⟩ := hsha
  unfold AtReset
  rw [hsha, hparser]
  exact ⟨rfl, rfl, rfl, rfl, hu, rfl, rfl, rfl, rfl, by decide⟩

theorem reset_atReset : AtReset State.reset := atReset_of ⟨_, rfl⟩ (by decide) rfl

theorem resetUnits_atReset (s : State) : AtReset s.resetUnits := atReset_of ⟨_, rfl⟩ s.readU_resetUnits rfl

/-- SHA.INIT; P.START; U.NIL U0 to U3, from any state. -/
theorem resetSequence_atReset (s : State) :
    ∃ t, runAll [command .shaInit, command .pStart, command (.uNil 0), command (.uNil 1), command (.uNil 2), command (.uNil 3)] s =
      .next t ∧ AtReset t := by
  refine ⟨_, (runAll_command (by decide) rfl _).trans <| (runAll_command (by decide) rfl _).trans <|
    (runAll_command (by decide) rfl _).trans <| (runAll_command (by decide) rfl _).trans <|
    (runAll_command (by decide) rfl _).trans <| (runAll_command (by decide) rfl _).trans (runAll_nil _), ?_⟩
  refine atReset_of ⟨s.sha.buf, rfl⟩ (fun r => ?_) rfl
  have hregs : ∀ r : UReg, r = 0 ∨ r = 1 ∨ r = 2 ∨ r = 3 := by decide
  rcases hregs r with rfl | rfl | rfl | rfl <;> simp

/-- Settles O7: State.reset, `State.resetUnits` (the reset input and CORE.RESET) and the six commands. -/
theorem resetGivesTheResetValues : Obligations.ResetGivesTheResetValues := by
  refine ⟨reset_atReset, fun s => ⟨_, rfl, resetUnits_atReset s⟩, fun s rest => ?_, resetSequence_atReset⟩
  exact ⟨_, step_cons _ .reset rest rfl, resetUnits_atReset _, rfl, rfl, rfl, rfl⟩

end Sys2Proof.Machine
end

section
/-! PROOF. O51: the read commands write nothing (20_memory.md R59). -/

open Sys2Proof.Claims

namespace Sys2Proof.Machine

/-- A read command is none of the writers: of the SHA-1 unit, of the parser, of a register. -/
theorem not_writes_of_isRead {i : Instr} (h : isRead i = true) :
    writesSha i = false ∧ writesParser i = false ∧ destination i = none := by
  cases i with
  | shaRdw _ | shaRdb _ | shaRdhex _ | shaStat | uRd128 _ | uRdb _ _ | uRdf _ _ | uVariant _ | uVersion _ | uEq _ _ | uCmp _ _
  | uFmtc _ _ | pStat => exact ⟨rfl, rfl, rfl⟩
  | _ => cases h

/-- A command without a destination, other than CORE.RESET, leaves the register file as it was. -/
theorem RegistersKept.eq_of_no_destination {i : Instr} {u u' : Vector Ident 4} (h : RegistersKept i u u') (hi : i ≠ .coreReset)
    (hd : destination i = none) : u' = u :=
  Vector.ext fun k hk => h hi ⟨k, hk⟩ (by simp [hd])

/-- Settles O51: what a command leaves is `State.after`, and of a read command that is the response alone, whether it gives the value or
raises. -/
theorem readCommandsChangeNoState : Obligations.ReadCommandsChangeNoState := by
  intro i s h
  obtain ⟨hsha, hparser, hdest⟩ := not_writes_of_isRead h
  have hi : i ≠ .coreReset := by rintro rfl; cases h
  obtain ⟨u, r, hkept, he⟩ := exec_eq_after i s
  obtain rfl : u = s.u := hkept.eq_of_no_destination hi hdest
  exact ⟨r, he.trans (congrArg _ (after_eq_answer hsha hparser s r.status r.rdata))⟩

end Sys2Proof.Machine
end

section
/-! SUPPORT. The fields of a word against the rows of R73 (30_encoding.md R71, R74, R75): a row's mask, the encoder on the row's commands and the
row's column "uses" all say the same of a word. -/

open Sys2Proof.Claims

namespace Sys2Proof

/-! ### A word and its six fields -/

theorem getLsbD_eq_of_extractLsb'_eq {a b : Word} {lo n k : Nat} (h : a.extractLsb' lo n = b.extractLsb' lo n)
    (hk : lo ≤ k ∧ k < lo + n) : a.getLsbD k = b.getLsbD k := by
  have hbit := congrArg (fun x : BitVec n => x.getLsbD (k - lo)) h
  simpa [BitVec.getLsbD_extractLsb', show k - lo < n by omega, show lo + (k - lo) = k by omega] using hbit

/-- The six fields of format C make up the word (R71). -/
theorem word_eq_iff {a b : Word} : a = b ↔ opField a = opField b ∧ a.extractLsb' 8 10 = b.extractLsb' 8 10 ∧
    a.extractLsb' 22 2 = b.extractLsb' 22 2 ∧ a.extractLsb' 20 2 = b.extractLsb' 20 2 ∧ a.extractLsb' 18 2 = b.extractLsb' 18 2 ∧
    idxField a = idxField b := by
  refine ⟨fun h => by simp [h], fun ⟨hop, hz, hrd, hrs, hrt, hidx⟩ => BitVec.eq_of_getLsbD_eq fun k hk => ?_⟩
  have hfield : 24 ≤ k ∧ k < 24 + 8 ∨ 8 ≤ k ∧ k < 8 + 10 ∨ 22 ≤ k ∧ k < 22 + 2 ∨ 20 ≤ k ∧ k < 20 + 2 ∨
      18 ≤ k ∧ k < 18 + 2 ∨ 0 ≤ k ∧ k < 0 + 8 := by omega
  rcases hfield with h | h | h | h | h | h
  · exact getLsbD_eq_of_extractLsb'_eq hop h
  · exact getLsbD_eq_of_extractLsb'_eq hz h
  · exact getLsbD_eq_of_extractLsb'_eq hrd h
  · exact getLsbD_eq_of_extractLsb'_eq hrs h
  · exact getLsbD_eq_of_extractLsb'_eq hrt h
  · exact getLsbD_eq_of_extractLsb'_eq hidx h

/-- The three register fields of a command word and its `Z`, which is zero (R71, R74). -/
theorem commandWord_extractLsb' (op : Byte) (rd rs rt : UReg) (idx : Byte) :
    (commandWord op rd rs rt idx).extractLsb' 8 10 = 0 ∧ (commandWord op rd rs rt idx).extractLsb' 22 2 = .ofFin rd ∧
    (commandWord op rd rs rt idx).extractLsb' 20 2 = .ofFin rs ∧ (commandWord op rd rs rt idx).extractLsb' 18 2 = .ofFin rt := by
  refine ⟨BitVec.eq_of_getLsbD_eq fun k hk => ?_, BitVec.toFin_inj.mp (rdField_commandWord ..),
    BitVec.toFin_inj.mp (rsField_commandWord ..), BitVec.toFin_inj.mp (rtField_commandWord ..)⟩
  rw [BitVec.getLsbD_extractLsb', commandWord_getLsbD _ _ _ _ _ _ (by omega), if_neg (by omega), if_neg (by omega),
    if_neg (by omega), if_neg (by omega), BitVec.getLsbD_of_ge idx _ (by omega)]
  simp

/-! ### The rows -/

/-- The decoder's row in the terms of R73's column "uses": the row reads a register field exactly where its mask is clear. -/
def Row.uses (r : Row) : Uses :=
  ⟨(opField r.pat).toNat, !r.mask.getLsbD 22, !r.mask.getLsbD 20, !r.mask.getLsbD 18, r.idxLast⟩

/-- The decoder's rows are the 29 of R73, in its order. -/
theorem map_uses_rows : rows.map Row.uses = usesTable := rfl

/-- The command of a row with the operands that stand in the fields of `w`. -/
def Row.commandOf (r : Row) (w : Word) : Instr := r.build (rdField w) (rsField w) (rtField w) (idxField w)

/-- R74 for a row: the opcode is the row's, `Z` and every field the row does not use are zero. -/
def Row.FieldsFit (r : Row) (w : Word) : Prop :=
  opField w = opField r.pat ∧ w.extractLsb' 8 10 = 0 ∧ (r.uses.rd = false → w.extractLsb' 22 2 = 0) ∧
  (r.uses.rs = false → w.extractLsb' 20 2 = 0) ∧ (r.uses.rt = false → w.extractLsb' 18 2 = 0) ∧
  (r.idxLast.isSome = false → idxField w = 0)

theorem and_ite_allOnes_eq_zero_iff {n : Nat} {x : BitVec n} {b : Bool} :
    x &&& (if b then 0 else .allOnes n) = 0 ↔ (b = false → x = 0) := by
  cases b <;> simp

theorem eq_ofFin_ite_iff {x : BitVec 2} {b : Bool} : x = .ofFin (if b then x.toFin else 0 : UReg) ↔ (b = false → x = 0) := by
  cases b <;> simp

/-- The index range with the zero of an unused index is R75 as `Uses.Selects` says it. -/
theorem Row.le_idxLast_iff (r : Row) (idx : Byte) :
    idx.toNat ≤ r.idxLast.getD 0 ↔ (r.idxLast.isSome = false → idx = 0) ∧ r.indexOk idx = true := by
  unfold indexOk
  cases r.idxLast <;> simp [BitVec.toNat_eq]

/-- The column "uses" of R73, with the index range (R74, R75). -/
theorem Row.uses_selects_iff (r : Row) (w : Word) : r.uses.Selects w ↔ r.FieldsFit w ∧ r.indexOk (idxField w) = true := by
  simp only [Uses.Selects, FieldsFit, and_assoc, ← r.le_idxLast_iff, Row.uses, BitVec.toNat_inj, opField, idxField]

/-- Every command is that of some row, with its operands in the fields of its command word. -/
theorem exists_commandOf_encode (i : Instr) : ∃ r ∈ rows, r.commandOf (encode i) = i := by
  have hrow : ∃ r, rowOf i.opcode = some r ∧ r.commandOf (encode i) = i := by
    cases i <;> exact ⟨_, rfl, by simp [encode, Row.commandOf]⟩
  obtain ⟨r, hr, hi⟩ := hrow
  exact ⟨r, List.mem_of_find?_eq_some hr, hi⟩

section
variable {r : Row} (hr : r ∈ rows) (w : Word)
include hr

/-- A mask covers each field whole or not at all: `OP` and `Z` always, of the others those the row does not use (R74). -/
theorem mask_fields :
    opField r.mask = .allOnes 8 ∧ r.mask.extractLsb' 8 10 = .allOnes 10 ∧
    r.mask.extractLsb' 22 2 = (if r.uses.rd then 0 else .allOnes 2) ∧
    r.mask.extractLsb' 20 2 = (if r.uses.rs then 0 else .allOnes 2) ∧
    r.mask.extractLsb' 18 2 = (if r.uses.rt then 0 else .allOnes 2) ∧
    idxField r.mask = (if r.idxLast.isSome then 0 else .allOnes 8) := by
  revert r
  decide

/-- The match value of a row is its opcode and zeros. -/
theorem pat_fields : r.pat.extractLsb' 8 10 = 0 ∧ r.pat.extractLsb' 22 2 = 0 ∧ r.pat.extractLsb' 20 2 = 0 ∧
    r.pat.extractLsb' 18 2 = 0 ∧ idxField r.pat = 0 := by
  revert r
  decide

theorem encode_build (rd rs rt : UReg) (idx : Byte) : encode (r.build rd rs rt idx) =
    commandWord (opField r.pat) (if r.uses.rd then rd else 0) (if r.uses.rs then rs else 0) (if r.uses.rt then rt else 0)
      (if r.idxLast.isSome then idx else 0) := by
  fin_cases hr <;> rfl

theorem wf_commandOf : (r.commandOf w).wf = r.indexOk (idxField w) := by
  fin_cases hr <;> rfl

theorem opcode_commandOf : (r.commandOf w).opcode = opField r.pat := by
  fin_cases hr <;> rfl

/-- Step (2) of R77, the mask check. -/
theorem and_mask_eq_pat_iff : w &&& r.mask = r.pat ↔ r.FieldsFit w := by
  obtain ⟨hop, hz, hrd, hrs, hrt, hidx⟩ := mask_fields hr
  obtain ⟨hz', hrd', hrs', hrt', hidx'⟩ := pat_fields hr
  rw [word_eq_iff, Row.FieldsFit]
  simp only [opField, idxField, BitVec.extractLsb'_and] at *
  simp only [hop, hz, hrd, hrs, hrt, hidx, hz', hrd', hrs', hrt', hidx', BitVec.and_allOnes, and_ite_allOnes_eq_zero_iff]

/-- The fields fit exactly when the word is the one the encoder gives to the row's command. -/
theorem encode_commandOf_eq_iff : encode (r.commandOf w) = w ↔ r.FieldsFit w := by
  rw [Row.commandOf, encode_build hr, eq_comm, word_eq_iff, Row.FieldsFit]
  simp only [commandWord_extractLsb', opField_commandWord, idxField_commandWord, rdField, rsField, rtField, eq_ofFin_ite_iff,
    left_eq_ite_iff, Bool.not_eq_true]

end

/-! ### The decoder -/

/-- No two rows have the same opcode (R73). -/
theorem rowOf_eq_some_iff {op : Byte} {r : Row} : rowOf op = some r ↔ r ∈ rows ∧ opField r.pat = op := by
  have hop : ∀ {r}, rowOf op = some r → r ∈ rows ∧ opField r.pat = op := fun h =>
    ⟨List.mem_of_find?_eq_some h, by simpa using List.find?_some h⟩
  refine ⟨hop, fun ⟨hr, he⟩ => ?_⟩
  obtain ⟨q, hq⟩ : ∃ q, rowOf op = some q := by
    rw [← Option.isSome_iff_exists, rowOf, List.find?_isSome]
    exact ⟨r, hr, by simpa using he⟩
  have hinj := List.inj_on_of_nodup_map (show (rows.map fun r => opField r.pat).Nodup by decide)
  rw [hq, hinj hr (hop hq).1 (he.trans (hop hq).2.symm)]

/-- The three checks of R77, in its order, before the row's command is answered. -/
theorem decode_eq_instr_iff_checks {w : Word} {i : Instr} : decode w = .instr i ↔
    ∃ r, rowOf (opField w) = some r ∧ w &&& r.mask = r.pat ∧ r.indexOk (idxField w) = true ∧ r.commandOf w = i := by
  unfold decode
  cases rowOf (opField w) with
  | none => simp
  | some r =>
    by_cases hmask : w &&& r.mask = r.pat
    · by_cases hidx : r.indexOk (idxField w) = true <;> simp [hmask, hidx, Row.commandOf]
    · simp [hmask]

/-- The decoder answers the command of the row that the word selects. -/
theorem decode_eq_instr_iff_selects {w : Word} {i : Instr} :
    decode w = .instr i ↔ ∃ r ∈ rows, r.uses.Selects w ∧ r.commandOf w = i := by
  rw [decode_eq_instr_iff_checks]
  constructor
  · rintro ⟨r, hrow, hmask, hidx, hi⟩
    have hr := (rowOf_eq_some_iff.mp hrow).1
    exact ⟨r, hr, (r.uses_selects_iff w).mpr ⟨(and_mask_eq_pat_iff hr w).mp hmask, hidx⟩, hi⟩
  · rintro ⟨r, hr, hsel, hi⟩
    obtain ⟨hfit, hidx⟩ := (r.uses_selects_iff w).mp hsel
    exact ⟨r, rowOf_eq_some_iff.mpr ⟨hr, hfit.1.symm⟩, (and_mask_eq_pat_iff hr w).mpr hfit, hidx, hi⟩

/-- Decoding and encoding are inverse to each other between the words that decode and the well-formed commands. -/
theorem decode_eq_instr_iff {w : Word} {i : Instr} : decode w = .instr i ↔ i.wf = true ∧ encode i = w := by
  rw [decode_eq_instr_iff_selects]
  constructor
  · rintro ⟨r, hr, hsel, rfl⟩
    obtain ⟨hfit, hidx⟩ := (r.uses_selects_iff w).mp hsel
    exact ⟨(wf_commandOf hr w).trans hidx, (encode_commandOf_eq_iff hr w).mpr hfit⟩
  · rintro ⟨hwf, rfl⟩
    obtain ⟨r, hr, hi⟩ := exists_commandOf_encode i
    have hfit := (encode_commandOf_eq_iff hr (encode i)).mp (congrArg encode hi)
    have hidx : r.indexOk (idxField (encode i)) = true := by rw [← wf_commandOf hr, hi, hwf]
    exact ⟨r, hr, (r.uses_selects_iff _).mpr ⟨hfit, hidx⟩, hi⟩

end Sys2Proof
end

section
/-! PROOF. O2, O3, O4: the command words and the commands correspond one to one, and every other word is illegal (30_encoding.md R71 to R77). -/

open Sys2Proof.Claims

namespace Sys2Proof

/-- Settles O2, by `decode_eq_instr_iff`: the command word of a well-formed command passes the checks of its own row. -/
theorem decodeOfEncodeGivesTheCommandBack : Obligations.DecodeOfEncodeGivesTheCommandBack :=
  fun _ hwf => decode_eq_instr_iff.mpr ⟨hwf, rfl⟩

/-- Settles O3, by `decode_eq_instr_iff`: a word that passes the checks of a row is what its fields encode, no bit left out. -/
theorem encodeOfDecodeGivesTheWordBack : Obligations.EncodeOfDecodeGivesTheWordBack :=
  fun _ _ h => decode_eq_instr_iff.mp h

/-- No two rows of R73 have the same opcode, so a word selects at most one. -/
theorem selects_unique {w : Word} {q r : Uses} (hq : q ∈ usesTable) (hr : r ∈ usesTable) (hqw : q.Selects w)
    (hrw : r.Selects w) : q = r :=
  List.inj_on_of_nodup_map (show (usesTable.map Uses.op).Nodup by decide) hq hr (hqw.1.symm.trans hrw.1)

/-- The rows of the decoder are those of R73, so a word spells a command exactly when it selects one of them. -/
theorem spellsCommand_iff_selects {w : Word} : SpellsCommand w ↔ ∃ r ∈ rows, r.uses.Selects w := by
  rw [SpellsCommand, ← map_uses_rows]
  simp

theorem spellsCommand_of_decode {w : Word} {i : Instr} (h : decode w = .instr i) : SpellsCommand w := by
  obtain ⟨r, hr, hsel, -⟩ := decode_eq_instr_iff_selects.mp h
  exact spellsCommand_iff_selects.mpr ⟨r, hr, hsel⟩

/-- A word that spells a command decodes to a well-formed command of its opcode. -/
theorem decode_of_spellsCommand {w : Word} (h : SpellsCommand w) :
    ∃ i, decode w = .instr i ∧ i.wf = true ∧ i.opcode = opField w := by
  obtain ⟨r, hr, hsel⟩ := spellsCommand_iff_selects.mp h
  have hdec : decode w = .instr (r.commandOf w) := decode_eq_instr_iff_selects.mpr ⟨r, hr, hsel, rfl⟩
  obtain ⟨hfit, -⟩ := (r.uses_selects_iff w).mp hsel
  exact ⟨_, hdec, (decode_eq_instr_iff.mp hdec).1, (opcode_commandOf hr w).trans hfit.1.symm⟩

/-- Settles O4: the row a word selects is unique by its opcode, selecting a row is decoding, and what does not decode raises IllegalCmd. -/
theorem wordSelectsOneRowOrRaisesIllegalCmd : Obligations.WordSelectsOneRowOrRaisesIllegalCmd := by
  refine ⟨rfl, fun w h => ⟨?row, decode_of_spellsCommand h⟩, fun w d rest s h => ?illegal⟩
  case row =>
    obtain ⟨r, hr, hsel⟩ := h
    exact ⟨r, ⟨hr, hsel⟩, fun q ⟨hq, hqsel⟩ => selects_unique hq hr hqsel hsel⟩
  case illegal =>
    cases hw : decode w with
    | instr i => exact absurd (spellsCommand_of_decode hw) h
    | illegal e => exact (Machine.step_cons _ (.command w d) rest rfl).trans (Machine.runCommand_illegal w e _ hw)

end Sys2Proof
end

section
/-! PROOF. O1, O31, O32: the spec's own command words, U.PACK, and the spec's assembler lines (30_encoding.md R73, R78, R79). -/

open Sys2Proof.Claims

namespace Sys2Proof

/-- Settles O1: 29 closed words, decoded. -/
theorem specWordsDecodeToTheirCommands : Obligations.SpecWordsDecodeToTheirCommands := by
  unfold Obligations.SpecWordsDecodeToTheirCommands
  decide

namespace Machine

/-- The six fields of R147 in the value that U.PACK puts on the bus. -/
theorem packed_fields {tl : BitVec 32} {tm thv : BitVec 16} {csh csl : Byte} {node : BitVec 48} {v : Ident}
    (hv : v = tl ++ tm ++ thv ++ csh ++ csl ++ node) :
    v.extractLsb' 96 32 = tl ∧ v.extractLsb' 80 16 = tm ∧ v.extractLsb' 64 16 = thv ∧ v.extractLsb' 56 8 = csh ∧
    v.extractLsb' 48 8 = csl ∧ v.extractLsb' 0 48 = node := by
  subst hv
  simp (disch := decide) only [BitVec.extractLsb'_append_eq_of_le, BitVec.extractLsb'_append_eq_of_add_le]
  simp

/-- Settles O31: U.PACK is one U.WR128 of the concatenation. -/
theorem packPlacesTheSixFields : Obligations.PackPlacesTheSixFields := by
  intro s rd tl tm thv csh csl node
  have hdecode : decode (encode (.uWr128 rd)) = .instr (.uWr128 rd) := decode_eq_instr_iff.mpr ⟨rfl, rfl⟩
  exact ⟨_, (runAll_command hdecode rfl []).trans (runAll_nil _),
    packed_fields ((State.readU_writeU (s.present _) rd rd _).trans (if_pos rfl))⟩

/-- Settles O32: seven closed lines, assembled. -/
theorem assemblerExamplesOfTheSpec : Obligations.AssemblerExamplesOfTheSpec := by
  unfold Obligations.AssemblerExamplesOfTheSpec
  decide

end Machine
end Sys2Proof
end

section
/-! SUPPORT. What a run keeps, and the three commands of a streaming hash: SHA.INIT, SHA.APPEND and SHA.FINISH (40_sha1.md R101 to R103). -/

open Sys2Proof.Claims

namespace Sys2Proof.Machine

/-! ### Runs -/

/-- A run keeps what each of its actions keeps; and it completes when each of them does. -/
theorem runAll_keeps {P : State → Prop} {as : List HostAction}
    (h : ∀ a ∈ as, ∀ s, P s → ∃ t, runAction a s = .next t ∧ P t) (s : State) (hs : P s) :
    ∃ t, runAll as s = .next t ∧ P t := by
  induction as generalizing s with
  | nil => exact ⟨s, runAll_nil s, hs⟩
  | cons a as ih =>
    obtain ⟨s', hstep, hs'⟩ := h a List.mem_cons_self s hs
    obtain ⟨t, hrun, ht⟩ := ih (fun b hb => h b (List.mem_cons_of_mem a hb)) s' hs'
    exact ⟨t, (runAll_cons a as s s' hstep).trans hrun, ht⟩

/-- The three commands of a streaming hash, SHA.INIT, SHA.APPEND and SHA.FINISH. -/
def streaming : List Instr := [.shaInit, .shaAppend, .shaFinish]

theorem decode_encode_streaming {i : Instr} (hi : i ∈ streaming) : decode (encode i) = .instr i := by
  have hwf : ∀ i ∈ streaming, i.wf = true := by decide
  exact decode_eq_instr_iff.mpr ⟨hwf i hi, rfl⟩

/-- A command of a streaming hash leaves its SHA-1 unit, responds `(OK, 0)`, and does nothing else (R101 to R103). -/
theorem exec_streaming {i : Instr} (hi : i ∈ streaming) (s : State) :
    exec i s = .next ({ s with sha := shaAfter i s }.answer .ok 0) := by
  fin_cases hi <;> rfl

/-- A command of a streaming hash writes the SHA-1 unit and nothing else. -/
theorem exec_streaming_touchesOnlySha {i : Instr} (hi : i ∈ streaming) (s : State) :
    ∃ t, exec i s = .next t ∧ TouchesOnlySha s t ∧ t.sha = shaAfter i s :=
  ⟨_, exec_streaming hi s, ⟨rfl, rfl, rfl, rfl, rfl, rfl, rfl⟩, rfl⟩

theorem runAction_streaming {i : Instr} (hi : i ∈ streaming) (d : Ident) (s : State) :
    runAction (command i d) s = .next ({ s.present d with sha := shaAfter i (s.present d) }.answer .ok 0) :=
  (runAction_command_instr (decode_encode_streaming hi) d s).trans (exec_streaming hi _)

/-- A streaming hash leaves the registers and the parser as they were. -/
theorem runAll_streaming_frame {as : List HostAction} (h : ∀ a ∈ as, ∃ i ∈ streaming, ∃ d, a = command i d) (s : State) :
    ∃ t, runAll as s = .next t ∧ t.u = s.u ∧ t.parser = s.parser := by
  refine runAll_keeps (P := fun t => t.u = s.u ∧ t.parser = s.parser) (fun a ha q hq => ?_) s ⟨rfl, rfl⟩
  obtain ⟨i, hi, d, rfl⟩ := h a ha
  exact ⟨_, runAction_streaming hi d q, hq⟩

end Sys2Proof.Machine
end

section
/-! PROOF. O12: streaming a message in chunks gives its one-shot digest (40_sha1.md R103, R112, R116, R119). -/

namespace Sys2Proof.Machine

/-! ### The digest -/

/-- Byte by byte, the chunks of a message are the message (R116). -/
theorem flatten_map_pseudoAppendN (chunks : List (List Byte)) :
    (chunks.map pseudoAppendN).flatten = pseudoAppendN chunks.flatten := List.map_flatten.symm

/-- A unit that received a message since the IV load has its digest in the accumulators after SHA.FINISH (R103). -/
theorem finishUnit_h_of_holds {m : Sha1Unit} {msg : List Byte} (hm : m.Holds iv 0 msg) (hfin : m.fin = false) :
    (finishUnit m).h = sha1Of msg := by
  rw [finishUnit_eq m hfin, finishBytes_of_holds m iv msg hm]
  exact (appendAll_holds m iv 0 msg (messagePadding msg.length) hm).h

/-- SHA.INIT, the bytes of a message and SHA.FINISH leave its digest. -/
theorem runAll_streaming_digest (msg : List Byte) (s : State) :
    ∃ t, runAll (command .shaInit :: (pseudoAppendN msg ++ [command .shaFinish])) s = .next t ∧
      t.sha.h = sha1Of msg ∧ t.sha.fin = true := by
  obtain ⟨q, hrun, hq⟩ := runAll_shaInit_appendN msg s
  have hm : q.sha.Holds iv 0 msg := hq ▸ appendAll_holds _ _ _ [] msg (loadIv_holds s.sha)
  have hfin : q.sha.fin = false := hq ▸ appendAll_fin (loadIv s.sha) msg
  refine ⟨_, (runAll_append (command .shaInit :: pseudoAppendN msg) _ s q hrun).trans
    ((runAll_cons _ [] q _ (runAction_streaming (i := .shaFinish) (by decide) 0 q)).trans (runAll_nil _)), ?_, ?_⟩
  · exact finishUnit_h_of_holds hm hfin
  · exact finishUnit_fin q.sha

/-! ### Reading the digest (R112) -/

/-- SHA.RDW of a finished unit answers a word of its accumulators. -/
theorem runAction_shaRdw {s : State} {idx : Byte} (hidx : idx.toNat ≤ 4) (hfin : s.sha.fin = true) (d : Ident) :
    runAction (command (.shaRdw idx) d) s =
      .next ((s.present d).answer .ok ((s.sha.h.toList.getD idx.toNat 0).setWidth 128)) := by
  have hwf : (Instr.shaRdw idx).wf = true := decide_eq_true hidx
  rw [command, runAction_command_instr (decode_eq_instr_iff.mpr ⟨hwf, rfl⟩)]
  exact (withIndex_ok 4 idx _ _ hidx).trans (readDigest_finished _ _ hfin)

/-- SHA.RDW after SHA.RDW answers word after word. -/
theorem runAll_shaRdw {s : State} (hfin : s.sha.fin = true) (idxs : List Byte) (h : ∀ idx ∈ idxs, idx.toNat ≤ 4) :
    ∃ t, runAll (idxs.map fun idx => command (.shaRdw idx)) s = .next t ∧
      t.out = (idxs.map fun idx => ⟨.ok, (s.sha.h.toList.getD idx.toNat 0).setWidth 128⟩).reverse ++ s.out := by
  induction idxs generalizing s with
  | nil => exact ⟨s, runAll_nil s, rfl⟩
  | cons idx idxs ih =>
    obtain ⟨hidx, hidxs⟩ := List.forall_mem_cons.mp h
    obtain ⟨t, hrun, hout⟩ := ih (s := (s.present 0).answer .ok ((s.sha.h.toList.getD idx.toNat 0).setWidth 128)) hfin hidxs
    exact ⟨t, (runAll_cons _ _ s _ (runAction_shaRdw hidx hfin 0)).trans hrun, by simp [hout]⟩

/-- SHA.VALUE of a finished unit answers the five words of its accumulators (30_encoding.md R79). -/
theorem runAll_pseudoValue {s : State} (hfin : s.sha.fin = true) : ∃ t, runAll pseudoValue s = .next t ∧
    t.out = (s.sha.h.toList.map fun x => ⟨.ok, x.setWidth 128⟩).reverse ++ s.out := by
  have hwords : s.sha.h.toList = [0, 1, 2, 3, 4].map fun idx : Byte => s.sha.h.toList.getD idx.toNat 0 := by
    refine List.ext_getElem (by simp) fun k hk _ => ?_
    have hk : k < 5 := by simpa using hk
    interval_cases k <;> simp
  obtain ⟨t, hrun, hout⟩ := runAll_shaRdw hfin [0, 1, 2, 3, 4] (by decide)
  refine ⟨t, hrun, ?_⟩
  rw [hout, hwords, List.map_map]
  rfl

/-- Settles O12: the chunks are the message byte by byte, the unit after them holds it, and SHA.FINISH appends its padding. -/
theorem streamingHashIsTheOneShotDigest : Obligations.StreamingHashIsTheOneShotDigest := by
  intro s chunks
  rw [flatten_map_pseudoAppendN]
  have hcommands : ∀ a ∈ command .shaInit :: (pseudoAppendN chunks.flatten ++ [command .shaFinish]),
      ∃ i ∈ streaming, ∃ d, a = command i d := by
    simp only [pseudoAppendN, List.mem_cons, List.mem_append, List.mem_map, List.not_mem_nil, or_false]
    rintro a (rfl | ⟨b, -, rfl⟩ | rfl)
    · exact ⟨.shaInit, by decide, _, rfl⟩
    · exact ⟨.shaAppend, by decide, _, rfl⟩
    · exact ⟨.shaFinish, by decide, _, rfl⟩
  obtain ⟨t, hrun, hh, hfin⟩ := runAll_streaming_digest chunks.flatten s
  obtain ⟨q, hrun', hu, hparser⟩ := runAll_streaming_frame hcommands s
  obtain rfl : t = q := Host.Outcome.next.inj (hrun.symm.trans hrun')
  obtain ⟨t', hread, hout⟩ := runAll_pseudoValue hfin
  exact ⟨t, t', hrun, hh, hfin, hu, hparser, hread, by rw [hout, hh]⟩

end Sys2Proof.Machine
end

section
/-! PROOF. O11: the compression function is the 80 rounds of R105 (40_sha1.md R105 to R111). -/

open Sys2Proof.Claims

namespace Sys2Proof.Machine

/-! ### The constants, the functions and the rotates -/

theorem roundConstant_eq_kOf {t : Nat} (ht : t < 80) : roundConstant t = kOf t := by
  have hall : ∀ t < 80, roundConstant t = kOf t := by decide
  exact hall t ht

theorem roundFunction_eq_fOf (t : Nat) (x y z : Word) : roundFunction t x y z = fOf t x y z := by
  simp only [roundFunction, fOf, Nat.lt_succ_iff, ch, parity, maj]

theorem rotl32_eq_rotateLeft (x : Word) {n : Nat} (hn : n < 32) : rotl32 x n = x.rotateLeft n := by
  rw [BitVec.rotateLeft_def, Nat.mod_eq_of_lt hn]; rfl

/-! ### The schedule (R109) -/

/-- Word `k` from the end of a word sequence. -/
theorem getD_reverse_map_range (w : Nat → Word) {n k : Nat} (hk : k < n) :
    ((List.range n).map w).reverse.getD k 0 = w (n - 1 - k) := by
  simp [List.getD_eq_getElem?_getD, hk]

/-- The words of the block, then those of the recurrence. -/
def IsSchedule (b : Vector Byte 64) (w : Nat → Word) : Prop :=
  (∀ t (ht : t < 16), w t = b[4 * t] ++ b[4 * t + 1] ++ b[4 * t + 2] ++ b[4 * t + 3]) ∧
  ∀ t, 16 ≤ t → t < 80 → w t = (w (t - 3) ^^^ w (t - 8) ^^^ w (t - 14) ^^^ w (t - 16)).rotateLeft 1

/-- The schedule is extended by the recurrence. -/
theorem expandSchedule_eq {b : Vector Byte 64} {w : Nat → Word} (h : IsSchedule b w) (n k : Nat) (hk : 16 ≤ k) (hn : k + n ≤ 80) :
    expandSchedule n ((List.range k).map w).reverse = ((List.range (k + n)).map w).reverse := by
  induction n generalizing k with
  | zero => rfl
  | succ n ih =>
    have hw : w k = rotl32 (w (k - 3) ^^^ w (k - 8) ^^^ w (k - 14) ^^^ w (k - 16)) 1 := by
      rw [rotl32_eq_rotateLeft _ (by decide), h.2 k hk (by omega)]
    have hnext : ((List.range (k + 1)).map w).reverse = w k :: ((List.range k).map w).reverse := by
      simp [List.range_succ]
    rw [expandSchedule, getD_reverse_map_range w (by omega), getD_reverse_map_range w (by omega),
      getD_reverse_map_range w (by omega), getD_reverse_map_range w (by omega),
      show k - 1 - 2 = k - 3 by omega, show k - 1 - 7 = k - 8 by omega, show k - 1 - 13 = k - 14 by omega,
      show k - 1 - 15 = k - 16 by omega, ← hw, ← hnext, ih (k + 1) (by omega) (by omega), Nat.add_right_comm, Nat.add_assoc]

theorem schedule_eq {b : Vector Byte 64} {w : Nat → Word} (h : IsSchedule b w) : schedule b = (List.range 80).map w := by
  have hfirst : (List.finRange 16).map (blockWord b) = (List.range 16).map w := by
    refine List.ext_getElem (by simp) fun t ht _ => ?_
    simpa [blockWord] using (h.1 t (by simpa using ht)).symm
  rw [schedule, hfirst, expandSchedule_eq h 64 16 (by decide) (by decide), List.reverse_reverse]

/-! ### The rounds (R105, R110) -/

/-- Rounds that step from one set of working variables to the next lead from the first to the last. -/
theorem runRounds_eq {v : Nat → Working} {w : Nat → Word} (n t : Nat)
    (h : ∀ k, t ≤ k → k < t + n → v (k + 1) = roundStep k (v k) (w k)) :
    runRounds t (v t) ((List.range' t n).map w) = v (t + n) := by
  induction n generalizing t with
  | zero => rfl
  | succ n ih =>
    have hstep : roundStep t (v t) (w t) = v (t + 1) := (h t (by omega) (by omega)).symm
    rw [List.range'_succ, List.map_cons, runRounds, hstep, ih (t + 1) fun k hk hn => h k (by omega) (by omega)]
    congr 1; omega

/-- R111: the word-wise addition of what the rounds leave. -/
theorem compress_of_runRounds {hin : Vector Word 5} {b : Vector Byte 64} {v : Working}
    (h : runRounds 0 ⟨hin[0], hin[1], hin[2], hin[3], hin[4]⟩ (schedule b) = v) :
    compress hin b = #v[hin[0] + v.a, hin[1] + v.b, hin[2] + v.c, hin[3] + v.d, hin[4] + v.e] := by
  subst h; rfl

/-- The rounds over the schedule lead from the accumulators to the last working variables. -/
theorem runRounds_schedule {b : Vector Byte 64} {w : Nat → Word} {v : Nat → Working} (hw : IsSchedule b w)
    (hv : ∀ t < 80, v (t + 1) = roundStep t (v t) (w t)) : runRounds 0 (v 0) (schedule b) = v 80 := by
  rw [schedule_eq hw, List.range_eq_range', runRounds_eq 80 0 fun t _ ht => hv t (by omega)]

/-- Settles O11: the model's schedule is the one of the recurrence, and each of its rounds is that of the equations. -/
theorem compressionIsEightyRounds : Obligations.CompressionIsEightyRounds := by
  intro hin b w va vb vc vd ve hblock hrec ha hb hc hd he hround
  refine compress_of_runRounds (v := ⟨va 80, vb 80, vc 80, vd 80, ve 80⟩) ?_
  rw [← ha, ← hb, ← hc, ← hd, ← he]
  refine runRounds_schedule (v := fun t => ⟨va t, vb t, vc t, vd t, ve t⟩) ⟨hblock, hrec⟩ fun t ht => ?_
  obtain ⟨ha', hb', hc', hd', he'⟩ := hround t ht
  simp only [roundStep, rotl32_eq_rotateLeft _ (show 5 < 32 by decide), rotl32_eq_rotateLeft _ (show 30 < 32 by decide),
    roundFunction_eq_fOf, roundConstant_eq_kOf ht, ha', hb', hc', hd', he']

end Sys2Proof.Machine
end

section
/-! PROOF. O13, O14, O15, O16: SHA.INIT, SHA.APPEND and SHA.FINISH (40_sha1.md R101 to R104, R117). -/

open Sys2Proof.Claims

namespace Sys2Proof.Machine

/-- Settles O13: the unit after SHA.INIT is that of the IV load. -/
theorem shaInitLoadsTheInitialValue : Obligations.ShaInitLoadsTheInitialValue :=
  exec_streaming_touchesOnlySha (by decide)

/-! ### SHA.APPEND (R102, R104) -/

theorem appendRaw_buf (m : Sha1Unit) (b : Byte) : (appendRaw m b).buf = m.buf.set m.nbuf.toNat b := by
  by_cases h : m.nbuf = 63
  · rw [appendRaw_full m b h]
  · rw [appendRaw_below m b h]

/-- Settles O14: a byte before the 64th is `appendRaw_below`, the 64th is `appendRaw_full`. -/
theorem appendBuffersAByteOrCompressesABlock : Obligations.AppendBuffersAByteOrCompressesABlock := by
  intro s
  obtain ⟨t, hexec, htouch, ht⟩ := exec_streaming_touchesOnlySha (i := .shaAppend) (by decide) s
  refine ⟨t, hexec, htouch, fun hfin => ht.trans (shaAfter_shaAppend_of_fin hfin), fun hfin => ?_⟩
  rw [ht, shaAfter_shaAppend_of_not_fin hfin]
  refine ⟨fun i => ?byte, (appendRaw_fin s.sha _).trans hfin, fun hlt => ?below, fun h63 => ?full⟩
  case byte =>
    rw [appendRaw_buf]
    by_cases hi : i.val = s.sha.nbuf.toNat
    · simp [hi, State.dataByte, BitVec.setWidth_eq_extractLsb']
    · rw [if_neg hi]
      exact Vector.getElem_set_ne _ _ fun e => hi e.symm
  case below =>
    have hne : s.sha.nbuf ≠ 63 := fun h => by simp [h] at hlt
    have hn := appendRaw_nbuf s.sha s.dataByte
    rw [appendRaw_below s.sha _ hne] at hn ⊢
    exact ⟨rfl, rfl, by omega⟩
  case full =>
    rw [appendRaw_full s.sha _ (BitVec.eq_of_toNat_eq h63)]
    exact ⟨rfl, BitVec.toNat_add .., rfl⟩

/-! ### SHA.FINISH (R103) -/

/-- What a unit that finishes has of its last blocks before the length: the buffered bytes, 0x80 and the zeros. -/
def lastBytes (m : Sha1Unit) : List Byte :=
  bufferedBytes m ++ 0x80#8 :: List.replicate ((119 - m.nbuf.toNat) % 64) 0x00#8

theorem bufferedBytes_append_finishBytes (m : Sha1Unit) :
    bufferedBytes m ++ finishBytes m = lastBytes m ++ lengthBytes (bitLength m) := by
  simp [lastBytes, finishBytes]

/-- The length fills the last block. -/
theorem lastBytes_length (m : Sha1Unit) : (lastBytes m).length = if m.nbuf.toNat ≤ 55 then 56 else 120 := by
  have hlt := m.nbuf.isLt
  simp only [lastBytes, List.length_append, bufferedBytes_length, List.length_cons, List.length_replicate]
  split <;> omega

/-- Behind 0x80 there are zeros alone. -/
theorem lastBytes_getD_of_lt (m : Sha1Unit) {k : Nat} (hk : m.nbuf.toNat < k) : (lastBytes m).getD k 0 = 0x00#8 := by
  have hlen := bufferedBytes_length m
  rw [lastBytes, List.getD_append_right _ _ _ _ (by omega), hlen,
    show k - m.nbuf.toNat = k - m.nbuf.toNat - 1 + 1 by omega, List.getD_cons_succ, List.getD_eq_getElem?_getD]
  exact List.getElem?_getD_replicate_default_eq ..

theorem lastBytes_getD (m : Sha1Unit) (i : Fin 64) : (lastBytes m).getD i.val 0 = paddedByte m i := by
  have hlen := bufferedBytes_length m
  rcases Nat.lt_trichotomy i.val m.nbuf.toNat with hi | hi | hi
  · rw [lastBytes, List.getD_append _ _ _ _ (by omega), paddedByte, if_pos hi]
    simp [bufferedBytes, List.getD_eq_getElem?_getD, hi]
  · rw [lastBytes, List.getD_append_right _ _ _ _ (by omega), paddedByte, if_neg (by omega), if_pos hi, hlen, hi, Nat.sub_self]
    rfl
  · rw [lastBytes_getD_of_lt m hi, paddedByte, if_neg (by omega), if_neg (by omega)]

theorem lengthBytes_getD (m : Sha1Unit) {i : Nat} (hi : i < 8) : (lengthBytes (bitLength m)).getD i 0 = lengthByte m i := by
  have hbyte : (lengthBytes (bitLength m)).getD i 0 = (bitLength m >>> (56 - 8 * i)).setWidth 8 := by
    simp [lengthBytes, List.getD_eq_getElem?_getD, hi]
  rw [hbyte]
  apply BitVec.eq_of_toNat_eq
  simp [bitLength, lengthByte, Nat.shiftRight_eq_div_pow]

/-- The block that ends in the length. -/
theorem messageBlock_last {m : Sha1Unit} {j : Nat} {f : Fin 64 → Byte} (hlen : (lastBytes m).length = 64 * j + 56)
    (hf : ∀ i : Fin 64, (lastBytes m).getD (64 * j + i.val) 0 = f i) :
    messageBlock (lastBytes m ++ lengthBytes (bitLength m)) j = lastBlock m f := by
  apply Vector.ext
  intro i hi
  rw [messageBlock, Vector.getElem_ofFn, lastBlock, Vector.getElem_ofFn]
  by_cases h56 : i < 56
  · rw [if_pos h56, List.getD_append _ _ _ _ (by simp only [hlen]; omega), hf]
  · rw [if_neg h56, List.getD_append_right _ _ _ _ (by simp only [hlen]; omega), hlen, ← lengthBytes_getD m (by simp only; omega)]
    congr 1; simp only; omega

/-- With 56 bytes or more in the buffer the first block holds no byte of the length. -/
theorem messageBlock_first {m : Sha1Unit} (hlen : 64 ≤ (lastBytes m).length) (bs : List Byte) :
    messageBlock (lastBytes m ++ bs) 0 = Vector.ofFn (paddedByte m) := by
  apply Vector.ext
  intro i hi
  rw [messageBlock_append _ _ _ (by omega), messageBlock, Vector.getElem_ofFn, Vector.getElem_ofFn, ← lastBytes_getD,
    Nat.mul_zero, Nat.zero_add]

/-- What a finished unit holds since the block boundary before SHA.FINISH. -/
theorem finishUnit_holds {m : Sha1Unit} (hfin : m.fin = false) :
    (finishUnit m).Holds m.h m.nblk (lastBytes m ++ lengthBytes (bitLength m)) := by
  have hm := appendAll_holds m _ _ _ (finishBytes m) (holds_bufferedBytes m)
  rw [finishUnit_eq m hfin, ← bufferedBytes_append_finishBytes]
  exact ⟨hm.h, hm.nblk, hm.nbuf, hm.buf⟩

/-- Settles O15: the bytes from the last block boundary on are one block or two, and `Holds` says what became of them. -/
theorem finishCompressesThePaddedBlocks : Obligations.FinishCompressesThePaddedBlocks := by
  intro s
  obtain ⟨t, hexec, htouch, ht⟩ := exec_streaming_touchesOnlySha (i := .shaFinish) (by decide) s
  replace ht : t.sha = finishUnit s.sha := ht
  refine ⟨t, hexec, htouch, fun hfin => ht.trans (finishUnit_of_fin s.sha hfin), fun hfin => ?_⟩
  have hlast := lastBytes_length s.sha
  obtain ⟨hh, hnblk, hnbuf, -⟩ := finishUnit_holds hfin
  simp only [List.length_append, lengthBytes_length] at hh hnblk hnbuf
  rw [ht]
  refine ⟨finishUnit_fin s.sha, BitVec.eq_of_toNat_eq (hnbuf.trans ?_), fun hle => ?one, fun hge => ?two⟩
  · split at hlast <;> simp [hlast]
  case one =>
    rw [if_pos hle] at hlast
    rw [hlast] at hh hnblk
    rw [← messageBlock_last (j := 0) hlast fun i => by rw [Nat.mul_zero, Nat.zero_add, lastBytes_getD]]
    exact ⟨hh, hnblk⟩
  case two =>
    rw [if_neg (by omega)] at hlast
    rw [hlast] at hh hnblk
    rw [← messageBlock_first (by omega) (lengthBytes (bitLength s.sha)),
      ← messageBlock_last (j := 1) hlast fun i => lastBytes_getD_of_lt s.sha (by omega)]
    exact ⟨hh, hnblk⟩

/-! ### After SHA.FINISH (R117) -/

/-- SHA.FINISH and SHA.APPEND leave a finished unit as it is. -/
theorem shaAfter_of_fin {i : Instr} (hi : i = .shaFinish ∨ i = .shaAppend) {s : State} (hfin : s.sha.fin = true) :
    shaAfter i s = s.sha := by
  obtain rfl | rfl := hi
  · exact finishUnit_of_fin s.sha hfin
  · exact shaAfter_shaAppend_of_fin hfin

/-- A run of the two commands from a finished unit leaves the unit, the registers and the parser as they were. -/
theorem runAll_of_fin {as : List HostAction} (h : ∀ a ∈ as, a = command .shaFinish ∨ ∃ b, a = command .shaAppend b) {s : State}
    (hfin : s.sha.fin = true) : ∃ t, runAll as s = .next t ∧ t.sha = s.sha ∧ t.u = s.u ∧ t.parser = s.parser := by
  refine runAll_keeps (P := fun t => t.sha = s.sha ∧ t.u = s.u ∧ t.parser = s.parser) (fun a ha q ⟨hsha, hframe⟩ => ?_) s
    ⟨rfl, rfl, rfl⟩
  obtain ⟨i, d, hi, hstreaming, rfl⟩ : ∃ i d, (i = .shaFinish ∨ i = .shaAppend) ∧ i ∈ streaming ∧ a = command i d := by
    obtain rfl | ⟨b, rfl⟩ := h a ha
    · exact ⟨_, _, .inl rfl, by decide, rfl⟩
    · exact ⟨_, _, .inr rfl, by decide, rfl⟩
  have hkept : shaAfter i (q.present d) = q.sha := shaAfter_of_fin (s := q.present d) hi (hsha ▸ hfin)
  exact ⟨_, runAction_streaming hstreaming d q, hkept.trans hsha, hframe⟩

/-- Settles O16: the first SHA.FINISH leaves a finished unit, which the others keep. -/
theorem finishIsIdempotent : Obligations.FinishIsIdempotent := by
  intro s as has
  have hfinish := runAction_streaming (i := .shaFinish) (by decide) 0 s
  obtain ⟨t, hrun, hsha, hframe⟩ := runAll_of_fin has
    (s := { s.present 0 with sha := finishUnit s.sha }.answer .ok 0) (finishUnit_fin s.sha)
  exact ⟨_, t, (runAll_cons _ [] s _ hfinish).trans (runAll_nil _), (runAll_cons _ as s _ hfinish).trans hrun, hsha, hframe⟩

end Sys2Proof.Machine
end

section
/-! PROOF. O18, O19, O20: the reads of the digest (40_sha1.md R112 to R114, 20_memory.md R55). -/

open Sys2Proof.Claims

namespace Sys2Proof.Machine

/-! ### The views of the digest -/

/-- A slice of a slice is a slice of the value. -/
theorem extractLsb'_extractLsb' {v : Nat} (x : BitVec v) {a n b m : Nat} (h : b + m ≤ n) :
    (x.extractLsb' a n).extractLsb' b m = x.extractLsb' (a + b) m := by
  apply BitVec.eq_of_getLsbD_eq
  intro k hk
  simp only [BitVec.getLsbD_extractLsb', hk, show b + k < n by omega, decide_true, Bool.true_and, Nat.add_assoc]

/-- R112: word `i` of the digest. -/
theorem digestWord_eq_extract (h : Vector Word 5) {i : Nat} (hi : i ≤ 4) :
    h.toList.getD i 0 = (digest h).extractLsb' (128 - 32 * i) 32 := by
  unfold digest
  interval_cases i <;>
    simp (disch := decide) only [BitVec.extractLsb'_append_eq_of_le, BitVec.extractLsb'_append_eq_of_add_le] <;> simp

/-- R113: byte `i` of the digest, the most significant first. -/
theorem digestByte_eq_extract (h : Vector Word 5) {i : Nat} (hi : i ≤ 19) :
    digestByte h i = (digest h).extractLsb' (152 - 8 * i) 8 := by
  rw [digestByte, digestWord_eq_extract h (by omega), BitVec.setWidth_ushiftRight_eq_extractLsb,
    extractLsb'_extractLsb' _ (by omega)]
  congr 1; omega

/-- A nibble of a byte is its high half or its low half. -/
theorem nibble_eq_extract (b : Byte) (n : Nat) : nibble b n = b.extractLsb' (4 - 4 * (n % 2)) 4 := by
  unfold nibble
  rcases Nat.mod_two_eq_zero_or_one n with hn | hn <;> rw [hn]
  · exact BitVec.setWidth_ushiftRight_eq_extractLsb
  · exact BitVec.setWidth_eq_extractLsb' (by decide)

theorem hexChar_lower (n : BitVec 4) : hexChar n .lower = lowerDigits.getD n.toNat 0 := by
  revert n; decide

/-- R114: the lower-case digit of nibble `j` of the digest. -/
theorem digestChar_eq_lowerDigit (h : Vector Word 5) {j : Nat} (hj : j ≤ 39) :
    digestChar h j = lowerDigits.getD ((digest h).extractLsb' (156 - 4 * j) 4).toNat 0 := by
  have hnibble : nibble (digestByte h (j / 2)) j = (digest h).extractLsb' (156 - 4 * j) 4 := by
    rw [nibble_eq_extract, digestByte_eq_extract h (by omega), extractLsb'_extractLsb' _ (by omega)]
    congr 1; omega
  rw [digestChar, hnibble, hexChar_lower]

/-! ### The reads -/

/-- The three answers of a digest read with an index: IllegalCmd, NotFinished, the view (R233, R235). -/
theorem digestRead_answers (last : Nat) (idx : Byte) (view : Vector Word 5 → Ident) (s : State) :
    (last < idx.toNat → withIndex last idx (readDigest view) s = .next (s.answer .illegalCmd 0)) ∧
    (idx.toNat ≤ last → s.sha.fin = false → withIndex last idx (readDigest view) s = .next (s.answer .notFinished 0)) ∧
    (idx.toNat ≤ last → s.sha.fin = true → withIndex last idx (readDigest view) s = .next (s.answer .ok (view s.sha.h))) :=
  ⟨withIndex_illegal last idx _ s, fun hidx hfin => (withIndex_ok last idx _ s hidx).trans (readDigest_unfinished view s hfin),
    fun hidx hfin => (withIndex_ok last idx _ s hidx).trans (readDigest_finished view s hfin)⟩

/-- Settles O18, by `digestWord_eq_extract`. -/
theorem readWordAnswersADigestWord : Obligations.ReadWordAnswersADigestWord := by
  intro s idx
  obtain ⟨hillegal, hunfinished, hfinished⟩ :=
    digestRead_answers 4 idx (fun h => (h.toList.getD idx.toNat 0).setWidth 128) s
  exact ⟨hillegal, hunfinished, fun hidx hfin => digestWord_eq_extract s.sha.h hidx ▸ hfinished hidx hfin⟩

/-- Settles O19, by `digestByte_eq_extract`. -/
theorem readByteAnswersADigestByte : Obligations.ReadByteAnswersADigestByte := by
  intro s idx
  obtain ⟨hillegal, hunfinished, hfinished⟩ :=
    digestRead_answers 19 idx (fun h => (digestByte h idx.toNat).setWidth 128) s
  exact ⟨hillegal, hunfinished, fun hidx hfin => digestByte_eq_extract s.sha.h hidx ▸ hfinished hidx hfin⟩

/-- Settles O20, by `digestChar_eq_lowerDigit`. -/
theorem readHexAnswersADigestCharacter : Obligations.ReadHexAnswersADigestCharacter := by
  intro s idx
  obtain ⟨hillegal, hunfinished, hfinished⟩ :=
    digestRead_answers 39 idx (fun h => (digestChar h idx.toNat).setWidth 128) s
  exact ⟨hillegal, hunfinished, fun hidx hfin => digestChar_eq_lowerDigit s.sha.h hidx ▸ hfinished hidx hfin⟩

end Sys2Proof.Machine
end

section
/-! PROOF. O21: the two status words (10_state.md R31, R37; 40_sha1.md R115, 43_uuid_parse.md R196). -/

open Sys2Proof.Claims

namespace Sys2Proof.Machine

/-! ### A field of a shifted value -/

theorem extractLsb'_shiftLeft_of_le {v : Nat} (x : BitVec v) {k lo n : Nat} (hk : k ≤ lo) (hn : lo + n ≤ v) :
    (x <<< k).extractLsb' lo n = x.extractLsb' (lo - k) n := by
  apply BitVec.eq_of_getLsbD_eq
  intro i hi
  simp only [BitVec.getLsbD_extractLsb', BitVec.getLsbD_shiftLeft, show lo + i - k = lo - k + i by omega]
  simp [show lo + i < v by omega, show ¬ lo + i < k by omega]

theorem extractLsb'_shiftLeft_of_add_le {v : Nat} (x : BitVec v) {k lo n : Nat} (hk : lo + n ≤ k) :
    (x <<< k).extractLsb' lo n = 0#n := by
  apply BitVec.eq_of_getLsbD_eq
  intro i hi
  simp [hi, show lo + i < k by omega]

theorem extractLsb'_of_width_le {v : Nat} (x : BitVec v) {lo n : Nat} (hv : v ≤ lo) : x.extractLsb' lo n = 0#n := by
  apply BitVec.eq_of_getLsbD_eq
  intro i hi
  simp [hi, BitVec.getLsbD_of_ge x (lo + i) (by omega)]

/-! ### The status words -/

/-- R37, R115: the fields of the SHA status word. -/
theorem shaStatusWord_fields (m : Sha1Unit) :
    (shaStatusWord m).extractLsb' 0 1 = BitVec.ofBool m.fin ∧ (shaStatusWord m).extractLsb' 1 7 = 0 ∧
    (shaStatusWord m).extractLsb' 8 6 = m.nbuf ∧ (shaStatusWord m).extractLsb' 14 50 = 0 ∧
    (shaStatusWord m).extractLsb' 64 64 = m.nblk := by
  unfold shaStatusWord
  simp (disch := decide) only [BitVec.extractLsb'_append_eq_of_le, BitVec.extractLsb'_append_eq_of_add_le]
  simp

/-- R37, R196: the fields of the parser status word. -/
theorem parserStatusWord_fields (p : ParserUnit) :
    (parserStatusWord p).extractLsb' 0 2 = p.pst.code ∧ (parserStatusWord p).extractLsb' 2 2 = 0 ∧
    (parserStatusWord p).extractLsb' 4 1 = BitVec.ofBool p.pbo ∧ (parserStatusWord p).extractLsb' 5 1 = BitVec.ofBool p.pbc ∧
    (parserStatusWord p).extractLsb' 6 2 = 0 ∧ (parserStatusWord p).extractLsb' 8 6 = p.pdig ∧
    (parserStatusWord p).extractLsb' 14 114 = 0 := by
  unfold parserStatusWord
  simp (disch := decide) only [BitVec.extractLsb'_or, extractLsb'_shiftLeft_of_le, extractLsb'_shiftLeft_of_add_le,
    BitVec.extractLsb'_setWidth_of_le, extractLsb'_of_width_le]
  simp

/-- Settles O21: the two commands answer the two status words. -/
theorem statusWordsHaveTheirFields : Obligations.StatusWordsHaveTheirFields := by
  refine ⟨rfl, rfl, rfl, rfl, fun s => ⟨shaStatusWord s.sha, parserStatusWord s.parser, rfl, rfl, ?_⟩⟩
  obtain ⟨hfin, hlow, hnbuf, hhigh, hnblk⟩ := shaStatusWord_fields s.sha
  exact ⟨hfin, hlow, hnbuf, hhigh, hnblk, parserStatusWord_fields s.parser⟩

end Sys2Proof.Machine
end

section
/-! SUPPORT. What each command of the bit-layout family leaves: a register written or an answer given, and IllegalCmd for an index out of
range (41_uuid_layout.md R141 to R152). -/

open Sys2Proof.Claims

namespace Sys2Proof.Machine

/-- A command that writes one register and responds 0 does what `WritesRegister` says (10_state.md R28). -/
theorem exists_writesRegister {i : Instr} {s : State} {rd : UReg} {v : Ident}
    (h : exec i s = .next ((s.writeU rd v).answer .ok 0)) : ∃ t, exec i s = .next t ∧ WritesRegister s t rd v 0 :=
  ⟨_, h, fun r => s.readU_writeU rd r v, rfl, rfl, rfl, rfl, rfl, rfl, rfl⟩

/-- The command word of a well-formed command executes it with its data on the bus (30_encoding.md R70). -/
theorem runAction_command {i : Instr} (hwf : i.wf = true) (d : Ident) (s : State) :
    runAction (command i d) s = exec i (s.present d) :=
  runAction_command_instr (decode_eq_instr_iff.mpr ⟨hwf, rfl⟩) d s

/-! ### Bytes (00_scope.md R9) and fields (R147) -/

/-- The model's byte `i` is that of R9. -/
theorem byteOf_eq_byteAt (u : Ident) (i : Nat) : byteOf u i = byteAt u i := byteOf_eq_extract u i

theorem dataByte_eq_extract (s : State) : s.dataByte = s.wdata.extractLsb' 0 8 := BitVec.setWidth_eq_extractLsb' (by decide)

/-- The field that the model gives to a selector of the table stands where the table says. -/
theorem fieldOf_of_mem {f : Nat × Nat × Nat} (hf : f ∈ fieldTable) {idx : Byte} (hidx : idx.toNat = f.1) :
    ∃ fld, fieldOf idx = some fld ∧ fld.place = f.2 := by
  rw [fieldOf, hidx]
  fin_cases hf <;> exact ⟨_, rfl, rfl⟩

theorem fieldOf_eq_none {idx : Byte} (h : 5 < idx.toNat) : fieldOf idx = none := by
  rw [← Option.not_isSome_iff_eq_none, fieldOf_isSome, decide_eq_true_iff]
  omega

/-- Two fields of the table are disjoint. -/
theorem fieldTable_disjoint {f g : Nat × Nat × Nat} (hf : f ∈ fieldTable) (hg : g ∈ fieldTable) (hne : g ≠ f) :
    f.2.1 + f.2.2 ≤ g.2.1 ∨ g.2.1 + g.2.2 ≤ f.2.1 := by
  have hall : ∀ f ∈ fieldTable, ∀ g ∈ fieldTable, g ≠ f → f.2.1 + f.2.2 ≤ g.2.1 ∨ g.2.1 + g.2.2 ≤ f.2.1 := by decide
  exact hall f hf g hg hne

/-- The fields leave no gap. -/
theorem fieldTable_covers {k : Nat} (hk : k < 128) : ∃ f ∈ fieldTable, f.2.1 ≤ k ∧ k < f.2.1 + f.2.2 := by
  simp only [fieldTable, List.mem_cons, List.not_mem_nil, or_false, exists_eq_or_imp, exists_eq_left]
  omega

/-- The last selector is 5, and every field lies inside the identifier. -/
theorem fieldTable_le {f : Nat × Nat × Nat} (hf : f ∈ fieldTable) : f.1 ≤ 5 ∧ f.2.1 + f.2.2 ≤ 128 := by
  have hall : ∀ f ∈ fieldTable, f.1 ≤ 5 ∧ f.2.1 + f.2.2 ≤ 128 := by decide
  exact hall f hf

/-! ### The commands with an index -/

/-- R75: an index above its range raises IllegalCmd. -/
theorem exec_of_last_lt_index {i : Instr} {idx : Byte} {last : Nat} (hi : i.index = some (idx, last)) (h : last < idx.toNat)
    (s : State) : exec i s = .next (s.answer .illegalCmd 0) := by
  cases i with
  | shaRdw | shaRdb | shaRdhex | uWrb | uRdb | uLdns | uFmtc =>
    cases hi
    simp only [exec, execShaRdw, execShaRdb, execShaRdhex, execUWrb, execURdb, execULdns, execUFmtc, withIndex_illegal _ _ _ s h]
  | uWrf | uRdf =>
    cases hi
    simp only [exec, execUWrf, execURdf, fieldOf_eq_none h, raise_eq]
  | _ => cases hi

/-- R145: U.WRB in its range. -/
theorem exec_uWrb {idx : Byte} (h : idx.toNat ≤ 15) (rd : UReg) (s : State) : exec (.uWrb rd idx) s =
    .next ((s.writeU rd (setByte (s.readU rd) idx.toNat s.dataByte)).answer .ok 0) := by
  simp only [exec, execUWrb, withIndex_ok 15 idx _ s h, respond_eq]

/-- R146: U.RDB in its range. -/
theorem exec_uRdb {idx : Byte} (h : idx.toNat ≤ 15) (rs : UReg) (s : State) : exec (.uRdb rs idx) s =
    .next (s.answer .ok ((byteOf (s.readU rs) idx.toNat).setWidth 128)) := by
  simp only [exec, execURdb, withIndex_ok 15 idx _ s h, respond_eq]

/-- R152: U.LDNS in its range. -/
theorem exec_uLdns {idx : Byte} (h : idx.toNat ≤ 3) (rd : UReg) (s : State) : exec (.uLdns rd idx) s =
    .next ((s.writeU rd (namespaceRom.toList.getD idx.toNat 0)).answer .ok 0) := by
  simp only [exec, execULdns, withIndex_ok 3 idx _ s h, respond_eq]

/-- R148: U.WRF of a field of the table. -/
theorem exec_uWrf {f : Nat × Nat × Nat} (hf : f ∈ fieldTable) {idx : Byte} (hidx : idx.toNat = f.1) (rd : UReg) (s : State) :
    exec (.uWrf rd idx) s = .next ((s.writeU rd (setSlice (s.readU rd) f.2.1 f.2.2 s.wdata)).answer .ok 0) := by
  obtain ⟨fld, hfld, hplace⟩ := fieldOf_of_mem hf hidx
  simp only [exec, execUWrf, hfld, setField, hplace, respond_eq]

/-- R149: U.RDF of a field of the table. -/
theorem exec_uRdf {f : Nat × Nat × Nat} (hf : f ∈ fieldTable) {idx : Byte} (hidx : idx.toNat = f.1) (rs : UReg) (s : State) :
    exec (.uRdf rs idx) s = .next (s.answer .ok (slice (s.readU rs) f.2.1 f.2.2)) := by
  obtain ⟨fld, hfld, hplace⟩ := fieldOf_of_mem hf hidx
  simp only [exec, execURdf, hfld, getField, hplace, respond_eq]

end Sys2Proof.Machine
end

section
/-! PROOF. O23, O24, O25, O26, O27, O29, O30: the commands of the bit-layout family, one by one (41_uuid_layout.md R141 to R152). -/

open Sys2Proof.Claims

namespace Sys2Proof.Machine

/-- Settles O23: the meaning of each of the four is one register write or one answer. -/
theorem wholeRegisterCommands : Obligations.WholeRegisterCommands := fun _ _ _ =>
  ⟨exists_writesRegister rfl, exists_writesRegister rfl, exists_writesRegister rfl, rfl⟩

/-- Settles O24, by `byteOf_setByte`. -/
theorem writeByteReplacesOneByte : Obligations.WriteByteReplacesOneByte := by
  refine fun s rd idx => ⟨fun h => exec_of_last_lt_index rfl h s, fun h => ?_⟩
  obtain ⟨t, hexec, hwrites⟩ := exists_writesRegister (exec_uWrb h rd s)
  refine ⟨t, _, hexec, hwrites, fun j hj => ?_⟩
  rw [← dataByte_eq_extract, ← byteOf_eq_byteAt, ← byteOf_eq_byteAt]
  exact byteOf_setByte _ _ _ _ h (by omega)

/-- Settles O25, by `byteOf_eq_byteAt`. -/
theorem readByteAnswersOneByte : Obligations.ReadByteAnswersOneByte := fun s rs idx =>
  ⟨fun h => exec_of_last_lt_index rfl h s, fun h => byteOf_eq_byteAt s.u[rs] idx.toNat ▸ exec_uRdb h rs s⟩

/-- Settles O26: the fields leave no gap and do not overlap, and `setSlice_getLsbD` says each bit of what U.WRF writes. -/
theorem writeFieldReplacesOneField : Obligations.WriteFieldReplacesOneField := by
  refine ⟨fun k hk => ?tile, fun s rd idx => ⟨fun h => exec_of_last_lt_index rfl h s, fun f hf hidx => ?write⟩⟩
  case tile =>
    obtain ⟨f, hf, hkf⟩ := fieldTable_covers hk
    refine ⟨f, ⟨hf, hkf⟩, fun g ⟨hg, hkg⟩ => by_contra fun hne => ?_⟩
    have := fieldTable_disjoint hf hg hne
    omega
  case write =>
    obtain ⟨t, hexec, hwrites⟩ := exists_writesRegister (exec_uWrf hf hidx rd s)
    exact ⟨t, _, hexec, hwrites, fun k _ => setSlice_getLsbD _ _ _ _ k (fieldTable_le hf).2⟩

/-- Settles O27, by `slice_eq_extract`. -/
theorem readFieldAnswersOneField : Obligations.ReadFieldAnswersOneField := by
  refine fun s rs idx => ⟨fun h => exec_of_last_lt_index rfl h s, fun f hf hidx => ?_⟩
  have hle := (fieldTable_le hf).2
  exact slice_eq_extract s.u[rs] f.2.1 f.2.2 (by omega) ▸ exec_uRdf hf hidx rs s

/-- R150: the variant code of each of the eight patterns of bits 63:61. -/
theorem variantCode_eq (u : Ident) :
    variantCode u = BitVec.ofNat 128 (([0, 2, 2, 2, 1, 1, 3, 4] : List Nat).getD (u.extractLsb' 61 3).toNat 0) := by
  rw [variantCode, slice_eq_extract u 61 3 (by decide)]
  generalize u.extractLsb' 61 3 = pattern
  revert pattern
  decide

/-- Settles O29: the variant by `variantCode_eq`, the version is a slice. -/
theorem derivedFieldsAreDecoded : Obligations.DerivedFieldsAreDecoded := fun s rs =>
  ⟨variantCode_eq s.u[rs] ▸ rfl, slice_eq_extract s.u[rs] 76 4 (by decide) ▸ rfl⟩

/-- Settles O30: the ROM holds the four constants. -/
theorem loadNamespaceWritesTheConstant : Obligations.LoadNamespaceWritesTheConstant := by
  refine fun s rd idx => ⟨fun h => exec_of_last_lt_index rfl h s, fun p hp hidx => ?_⟩
  have hrom : p.1 ≤ 3 ∧ namespaceRom.toList.getD p.1 0 = p.2 := by
    clear hidx
    revert p
    decide
  obtain ⟨hle, hconst⟩ := hrom
  rw [← hidx] at hle hconst
  exact exists_writesRegister (hconst ▸ exec_uLdns hle rd s)

end Sys2Proof.Machine
end

section
/-! PROOF. O28: writing an identifier piece by piece, in any order (41_uuid_layout.md R153). -/

open Sys2Proof.Claims

namespace Sys2Proof.Machine

/-! ### Pieces of a value copied one after the other -/

/-- The bits of the piece `p`, given by its lowest bit and its width, copied from `v` into `u`. -/
def copySlice (v u : Ident) (p : Nat × Nat) : Ident := setSlice u p.1 p.2 ((v.extractLsb' p.1 p.2).setWidth 128)

theorem copySlice_getLsbD (v u : Ident) {p : Nat × Nat} (hp : p.1 + p.2 ≤ 128) (k : Nat) :
    (copySlice v u p).getLsbD k = if p.1 ≤ k ∧ k < p.1 + p.2 then v.getLsbD k else u.getLsbD k := by
  rw [copySlice, setSlice_getLsbD _ _ _ _ _ hp]
  refine if_ctx_congr Iff.rfl (fun hk => ?_) fun _ => rfl
  simp [show k - p.1 < 128 by omega, show k - p.1 < p.2 by omega, show p.1 + (k - p.1) = k by omega]

/-- A bit that some piece covers, or that was right before, is right after all pieces. -/
theorem foldl_copySlice_getLsbD (v : Ident) (k : Nat) (ps : List (Nat × Nat)) (u : Ident) (hps : ∀ p ∈ ps, p.1 + p.2 ≤ 128)
    (h : u.getLsbD k = v.getLsbD k ∨ ∃ p ∈ ps, p.1 ≤ k ∧ k < p.1 + p.2) :
    (ps.foldl (copySlice v) u).getLsbD k = v.getLsbD k := by
  induction ps generalizing u with
  | nil => simpa using h
  | cons p ps ih =>
    obtain ⟨hp, hps⟩ := List.forall_mem_cons.mp hps
    refine ih (copySlice v u p) hps ?_
    rw [copySlice_getLsbD v u hp]
    by_cases hk : p.1 ≤ k ∧ k < p.1 + p.2
    · exact .inl (if_pos hk)
    · simpa [hk] using h

/-- Pieces that leave no gap give the whole value, whatever was there before. -/
theorem foldl_copySlice_of_covers (v u : Ident) {ps : List (Nat × Nat)} (hps : ∀ p ∈ ps, p.1 + p.2 ≤ 128)
    (hcover : ∀ k < 128, ∃ p ∈ ps, p.1 ≤ k ∧ k < p.1 + p.2) : ps.foldl (copySlice v) u = v :=
  BitVec.eq_of_getLsbD_eq fun k hk => foldl_copySlice_getLsbD v k ps u hps (.inr (hcover k hk))

/-! ### Runs of such writes -/

/-- The action copies the piece `p` of `v` into the register `rd`, whatever the state. -/
def CopiesInto (rd : UReg) (v : Ident) (a : HostAction) (p : Nat × Nat) : Prop :=
  ∀ s, ∃ t, runAction a s = .next t ∧ ∀ r, t.readU r = if r = rd then copySlice v (s.readU rd) p else s.readU r

/-- A run of copies copies the pieces in order. -/
theorem runAll_copies {rd : UReg} {v : Ident} {α : Type} {act : α → HostAction} {place : α → Nat × Nat} {xs : List α}
    (h : ∀ x ∈ xs, CopiesInto rd v (act x) (place x)) (s : State) : ∃ t, runAll (xs.map act) s = .next t ∧
      ∀ r, t.readU r = if r = rd then (xs.map place).foldl (copySlice v) (s.readU rd) else s.readU r := by
  induction xs generalizing s with
  | nil => exact ⟨s, runAll_nil s, fun r => (ite_eq_right_iff.mpr fun hr => hr ▸ rfl).symm⟩
  | cons x xs ih =>
    obtain ⟨hx, hxs⟩ := List.forall_mem_cons.mp h
    obtain ⟨s', hstep, hs'⟩ := hx s
    obtain ⟨t, hrun, ht⟩ := ih hxs s'
    refine ⟨t, (runAll_cons _ _ s s' hstep).trans hrun, fun r => ?_⟩
    rw [ht r, hs' rd, hs' r, if_pos rfl]
    by_cases hr : r = rd <;> simp [hr]

/-- Copies of pieces that leave no gap leave the whole value in the register, and the others as they were. -/
theorem runAll_copies_of_covers {rd : UReg} {v : Ident} {α : Type} {act : α → HostAction} {place : α → Nat × Nat} {xs : List α}
    (h : ∀ x ∈ xs, CopiesInto rd v (act x) (place x)) (hplace : ∀ x ∈ xs, (place x).1 + (place x).2 ≤ 128)
    (hcover : ∀ k < 128, ∃ x ∈ xs, (place x).1 ≤ k ∧ k < (place x).1 + (place x).2) (s : State) :
    ∃ t, runAll (xs.map act) s = .next t ∧ ∀ r, t.readU r = if r = rd then v else s.readU r := by
  obtain ⟨t, hrun, ht⟩ := runAll_copies h s
  rw [foldl_copySlice_of_covers v _ (List.forall_mem_map.mpr hplace) fun k hk => by simpa using hcover k hk] at ht
  exact ⟨t, hrun, ht⟩

/-- U.WRB of byte `i` of `v` copies that byte. -/
theorem uWrb_copiesInto (rd : UReg) (v : Ident) {i : Nat} (hi : i < 16) :
    CopiesInto rd v (command (.uWrb rd (BitVec.ofNat 8 i)) ((byteAt v i).setWidth 128)) (byteLo i, 8) := by
  intro s
  have hidx : (BitVec.ofNat 8 i).toNat = i := Nat.mod_eq_of_lt (by omega)
  have hle : (BitVec.ofNat 8 i).toNat ≤ 15 := hidx.trans_le (Nat.le_of_lt_succ hi)
  have hwf : (Instr.uWrb rd (BitVec.ofNat 8 i)).wf = true := decide_eq_true hle
  have hdata : ((byteAt v i).setWidth 128).setWidth 8 = byteAt v i := by simp
  refine ⟨_, (runAction_command hwf _ s).trans (exec_uWrb hle rd _), fun r => ?_⟩
  rw [hidx, State.dataByte_present, hdata]
  exact State.readU_writeU _ rd r _

/-- U.WRF of a field of `v` copies that field. -/
theorem uWrf_copiesInto (rd : UReg) (v : Ident) {f : Nat × Nat × Nat} (hf : f ∈ fieldTable) :
    CopiesInto rd v (command (.uWrf rd (BitVec.ofNat 8 f.1)) ((v.extractLsb' f.2.1 f.2.2).setWidth 128)) f.2 := by
  intro s
  have hle := (fieldTable_le hf).1
  have hidx : (BitVec.ofNat 8 f.1).toNat = f.1 := Nat.mod_eq_of_lt (by omega)
  have hwf : (Instr.uWrf rd (BitVec.ofNat 8 f.1)).wf = true := decide_eq_true (hidx.trans_le hle)
  exact ⟨_, (runAction_command hwf _ s).trans (exec_uWrf hf hidx rd _), fun r => State.readU_writeU _ rd r _⟩

/-- Settles O28: the bytes and the fields are pieces that leave no gap, in whatever order. -/
theorem piecewiseWritesGiveTheWholeValue : Obligations.PiecewiseWritesGiveTheWholeValue := by
  refine fun s rd v => ⟨fun order horder => ?bytes, fun order horder => ?fields⟩
  case bytes =>
    have hmem : ∀ i, i ∈ order ↔ i < 16 := fun i => horder.mem_iff.trans List.mem_range
    refine runAll_copies_of_covers (place := fun i => (byteLo i, 8)) (fun i hi => uWrb_copiesInto rd v ((hmem i).mp hi))
      (fun i _ => ?_) (fun k hk => ⟨15 - k / 8, (hmem _).mpr (by omega), ?_⟩) s
    all_goals simp only [byteLo]; omega
  case fields =>
    refine runAll_copies_of_covers (place := Prod.snd) (fun f hf => uWrf_copiesInto rd v (horder.mem_iff.mp hf))
      (fun f hf => (fieldTable_le (horder.mem_iff.mp hf)).2) (fun k hk => ?_) s
    obtain ⟨f, hf, hkf⟩ := fieldTable_covers hk
    exact ⟨f, horder.mem_iff.mpr hf, hkf⟩

end Sys2Proof.Machine
end

section
/-! SUPPORT. The stamp bit by bit, and what a stamped identifier reports (42_uuid_generate.md R170; 41_uuid_layout.md R150, R151). -/

open Sys2Proof.Claims

namespace Sys2Proof.Machine

/-- The version goes into the top nibble of byte 6. -/
theorem versionByte_getLsbD (b : Byte) (ver : BitVec 4) {j : Nat} (hj : j < 8) :
    ((b &&& 0x0F#8) ||| (ver.setWidth 8 <<< 4)).getLsbD j = if 4 ≤ j then ver.getLsbD (j - 4) else b.getLsbD j := by
  interval_cases j <;> simp

/-- `10` goes into the top two bits of byte 8. -/
theorem variantByte_getLsbD (b : Byte) {j : Nat} (hj : j < 8) :
    ((b &&& 0x3F#8) ||| 0x80#8).getLsbD j = if 6 ≤ j then decide (j = 7) else b.getLsbD j := by
  interval_cases j <;> simp

/-- A bit after one byte was replaced (R145). -/
theorem setByte_getLsbD (u : Ident) {i : Nat} (hi : i ≤ 15) (b : Byte) (k : Nat) :
    (setByte u i b).getLsbD k = if byteLo i ≤ k ∧ k < byteLo i + 8 then b.getLsbD (k - byteLo i) else u.getLsbD k := by
  rw [setByte, setSlice_getLsbD _ _ _ _ _ (by unfold byteLo; omega)]
  refine if_ctx_congr Iff.rfl (fun hk => ?_) fun _ => rfl
  simp [show k - byteLo i < 128 by omega]

theorem stamp_getLsbD (u : Ident) (ver : BitVec 4) (k : Nat) : (stamp u ver).getLsbD k =
    if 76 ≤ k ∧ k < 80 then ver.getLsbD (k - 76) else if 62 ≤ k ∧ k < 64 then decide (k = 63) else u.getLsbD k := by
  rw [stamp, setByte_getLsbD _ (by decide), setByte_getLsbD _ (by decide), show byteLo 6 = 72 from rfl, show byteLo 8 = 56 from rfl]
  by_cases hbyte8 : 56 ≤ k ∧ k < 64
  · obtain ⟨j, rfl⟩ := Nat.exists_eq_add_of_le hbyte8.1
    have hj : j < 8 := by omega
    rw [if_pos hbyte8, if_neg (by omega), Nat.add_sub_cancel_left, variantByte_getLsbD _ hj, byteOf_getLsbD]
    exact if_ctx_congr (by omega) (fun _ => decide_eq_decide.mpr (by omega)) fun _ => by simp [hj, byteLo]
  · rw [if_neg hbyte8]
    by_cases hbyte6 : 72 ≤ k ∧ k < 80
    · obtain ⟨j, rfl⟩ := Nat.exists_eq_add_of_le hbyte6.1
      have hj : j < 8 := by omega
      rw [if_pos hbyte6, if_neg (c := 62 ≤ 72 + j ∧ 72 + j < 64) (by omega), Nat.add_sub_cancel_left, versionByte_getLsbD _ _ hj,
        byteOf_getLsbD]
      exact if_ctx_congr (by omega) (fun _ => by congr 1; omega) fun _ => by simp [hj, byteLo]
    · rw [if_neg hbyte6, if_neg (by omega), if_neg (by omega)]

/-- The stamp overwrites six bits and keeps the other 122 (R170). -/
theorem stamped_stamp (u : Ident) (ver : BitVec 4) : Stamped u (stamp u ver) ver := by
  refine ⟨BitVec.eq_of_getLsbD_eq fun j hj => ?version, BitVec.eq_of_getLsbD_eq fun j hj => ?variant, fun k _ h6 h8 => ?rest⟩
  case version =>
    rw [BitVec.getLsbD_extractLsb', stamp_getLsbD, if_pos (by omega), Nat.add_sub_cancel_left]
    simp [hj]
  case variant =>
    rw [BitVec.getLsbD_extractLsb', stamp_getLsbD, if_neg (by omega), if_pos (by omega)]
    interval_cases j <;> rfl
  case rest => rw [stamp_getLsbD, if_neg h6, if_neg h8]

variable {d v : Ident} {ver : BitVec 4}

/-- A stamped identifier is of variant standard (R150). -/
theorem variantCode_of_stamped (h : Stamped d v ver) : variantCode v = 1 := by
  obtain ⟨-, hvariant, -⟩ := h
  have hpattern : v.extractLsb' 61 3 = v.extractLsb' 62 2 ++ v.extractLsb' 61 1 :=
    (BitVec.extractLsb'_append_extractLsb'_eq_extractLsb' (len₁ := 1) (len₂ := 2) rfl).symm
  rw [variantCode_eq, hpattern, hvariant]
  generalize v.extractLsb' 61 1 = low
  revert low
  decide

/-- A stamped identifier is of the version stamped (R151). -/
theorem versionNibble_of_stamped (h : Stamped d v ver) : versionNibble v = ver.setWidth 128 := by
  obtain ⟨hversion, -, -⟩ := h
  rw [versionNibble, slice_eq_extract v 76 4 (by decide), hversion]

end Sys2Proof.Machine
end

section
/-! PROOF. O33: U.GEN4 (42_uuid_generate.md R171). -/

open Sys2Proof.Claims

namespace Sys2Proof.Machine

/-- Settles O33: the meaning is one register write, of the stamped operand, and a stamped identifier reports its stamp. -/
theorem randomGenerationStampsItsOperand : Obligations.RandomGenerationStampsItsOperand := by
  intro s rd
  have hstamped := stamped_stamp s.wdata 4
  obtain ⟨t, hexec, hregisters, hframe⟩ := exists_writesRegister (i := .uGen4 rd) (s := s) rfl
  have hrd : t.readU rd = stamp s.wdata 4 := (hregisters rd).trans (if_pos rfl)
  have hvariant : variantCode (t.readU rd) = 1 := hrd ▸ variantCode_of_stamped hstamped
  have hversion : versionNibble (t.readU rd) = 4 := hrd ▸ versionNibble_of_stamped hstamped
  exact ⟨t, _, hexec, ⟨hregisters, hframe⟩, hstamped, hvariant ▸ rfl, hversion ▸ rfl⟩

end Sys2Proof.Machine
end

section
/-! PROOF. O34, O35, O36: name-based generation, N5.BEGIN and N5.END (42_uuid_generate.md R172 to R175; 30_encoding.md R79). -/

open Sys2Proof.Claims

namespace Sys2Proof.Machine

/-! ### N5.BEGIN (R172) -/

theorem identBytes_eq (u : Ident) : identBytes u = (List.range 16).map (byteAt u) :=
  List.map_congr_left fun i _ => byteOf_eq_byteAt u i

/-- A command that leaves a new SHA-1 unit and responds 0 does what `TouchesOnlySha` says. -/
theorem exists_touchesOnlySha {i : Instr} {s : State} {m : Sha1Unit} (h : exec i s = .next ({ s with sha := m }.answer .ok 0)) :
    ∃ t, exec i s = .next t ∧ TouchesOnlySha s t ∧ t.sha = m :=
  ⟨_, h, ⟨rfl, rfl, rfl, rfl, rfl, rfl, rfl⟩, rfl⟩

/-- N5.BEGIN leaves the SHA-1 unit after the IV load and the namespace's bytes, and writes nothing else. -/
theorem exec_n5Begin_touchesOnlySha (rs : UReg) (s : State) : ∃ t, exec (.n5Begin rs) s = .next t ∧ TouchesOnlySha s t ∧
    t.sha = appendAll (loadIv s.sha) ((List.range 16).map (byteAt s.u[rs])) :=
  exists_touchesOnlySha (identBytes_eq s.u[rs] ▸ rfl)

/-- Bytes fed after the IV load are the message the unit holds, and it is not finished (40_sha1.md R101, R104). -/
theorem appendAll_loadIv_holds {m m0 : Sha1Unit} {msg : List Byte} (h : m = appendAll (loadIv m0) msg) :
    m.Holds iv 0 msg ∧ m.fin = false :=
  h ▸ ⟨appendAll_holds _ _ _ [] msg (loadIv_holds m0), appendAll_fin (loadIv m0) msg⟩

/-- Settles O34: the unit holds the namespace's bytes, which fill no block. -/
theorem nameBeginFeedsTheNamespace : Obligations.NameBeginFeedsTheNamespace := by
  intro s rs
  obtain ⟨t, hexec, htouch, hsha⟩ := exec_n5Begin_touchesOnlySha rs s
  obtain ⟨⟨hh, hnblk, hnbuf, hbuf⟩, hfin⟩ := appendAll_loadIv_holds hsha
  simp only [List.length_map, List.length_range] at hh hnblk hnbuf hbuf
  exact ⟨t, hexec, htouch, hh, hnblk, BitVec.eq_of_toNat_eq hnbuf, hfin, fun i hi => (hbuf i hi).trans (by simp [hi])⟩

/-! ### N5.END (R173) -/

/-- The first 16 bytes of the digest (R175). -/
theorem digestHead_eq_extract (h : Vector Word 5) : digestHead h = (digest h).extractLsb' 32 128 := by
  rw [digest, BitVec.extractLsb'_append_eq_of_le (by decide)]
  exact BitVec.extractLsb'_eq_self.symm

/-- Settles O35: N5.END finishes the unit by the same function as SHA.FINISH, and writes one register. -/
theorem nameEndStampsTheDigest : Obligations.NameEndStampsTheDigest := by
  intro s rd
  refine ⟨_, _, _, rfl, rfl, rfl, finishUnit_fin s.sha, ?_, fun r => s.readU_writeU rd r _, rfl, rfl, rfl, rfl, rfl, rfl⟩
  exact digestHead_eq_extract (finishUnit s.sha).h ▸ stamped_stamp _ 5

/-! ### U.GEN5 (R174) -/

/-- SHA.APPENDN is a part of a streaming hash. -/
theorem pseudoAppendN_streaming (bs : List Byte) : ∀ a ∈ pseudoAppendN bs, ∃ i ∈ streaming, ∃ d, a = command i d := by
  intro a ha
  obtain ⟨b, -, rfl⟩ := List.mem_map.mp ha
  exact ⟨.shaAppend, by decide, _, rfl⟩

/-- N5.BEGIN and SHA.APPENDN feed the namespace's bytes, then the name's. -/
theorem runAll_n5Begin_appendN (rs : UReg) (name : List Byte) (s : State) :
    ∃ t, runAll (command (.n5Begin rs) :: pseudoAppendN name) s = .next t ∧
      t.sha = appendAll (loadIv s.sha) ((List.range 16).map (byteAt s.u[rs]) ++ name) ∧ t.u = s.u ∧ t.parser = s.parser := by
  obtain ⟨p, hbegin, ⟨hu, hparser, -⟩, hsha⟩ := exec_n5Begin_touchesOnlySha rs (s.present 0)
  obtain ⟨t, hrun, ht⟩ := runAll_pseudoAppendN name p (appendAll_loadIv_holds hsha).2
  obtain ⟨q, hrun', htu, htparser⟩ := runAll_streaming_frame (pseudoAppendN_streaming name) p
  obtain rfl : t = q := Host.Outcome.next.inj (hrun.symm.trans hrun')
  exact ⟨t, (runAll_cons _ _ s p ((runAction_command rfl 0 s).trans hbegin)).trans hrun,
    by rw [ht, hsha, appendAll_append]; rfl, htu.trans hu, htparser.trans hparser⟩

/-- Settles O36: the unit before N5.END holds the namespace's bytes and the name's, and N5.END stamps their digest. -/
theorem nameBasedGenerationIsTheStampedDigest : Obligations.NameBasedGenerationIsTheStampedDigest := by
  intro s rd rs name
  obtain ⟨q, hrun, hsha, hu, hparser⟩ := runAll_n5Begin_appendN rs name s
  obtain ⟨hm, hfin⟩ := appendAll_loadIv_holds hsha
  obtain ⟨f, t, v, hfinish, hend, -, -, hstamped, ht, htparser, -⟩ := nameEndStampsTheDigest (q.present 0) rd
  have hdigest : f.sha.h = sha1Of ((List.range 16).map (byteAt s.u[rs]) ++ name) := by
    rw [← Host.Outcome.next.inj ((exec_streaming (i := .shaFinish) (by decide) (q.present 0)).symm.trans hfinish)]
    exact finishUnit_h_of_holds hm hfin
  have hrun5 : runAll (pseudoGen5 rd rs name) s = .next t :=
    (runAll_append (command (.n5Begin rs) :: pseudoAppendN name) [command (.n5End rd)] s q hrun).trans
      ((runAll_cons _ [] q t ((runAction_command rfl 0 q).trans hend)).trans (runAll_nil t))
  exact ⟨t, v, hrun5, hdigest ▸ hstamped, fun r => (ht r).trans (by rw [State.present_u, hu]), htparser.trans hparser⟩

end Sys2Proof.Machine
end

section
/-! PROOF. O37, O38: the whitespace predicates `IsWs` and the character classes (43_uuid_parse.md R187, R188). -/

namespace Sys2Proof.Machine

/-! ### Structural code points and whitespace (R188) -/

theorem hexVal_isSome_iff (c : Word) : (hexVal c).isSome = true ↔ ∃ v, HexDigit c v := by
  rw [Option.isSome_iff_exists]
  constructor
  · rintro ⟨v, hv⟩
    exact ⟨v.toNat, (hexVal_eq_some c v).mp hv⟩
  · rintro ⟨x, hx⟩
    exact ⟨_, (hexVal_of_digit c x hx).2⟩

/-- The structural code points are those of the classes Hex, Hyphen, Open and Close. -/
theorem isStructural_iff (c : Word) :
    isStructural c = true ↔ (∃ v, HexDigit c v) ∨ c = 0x2D#32 ∨ c = 0x7B#32 ∨ c = 0x7D#32 := by
  simp only [isStructural, Bool.or_eq_true, beq_iff_eq, hexVal_isSome_iff, or_assoc]

theorem isWs_iff (cfg : Config) (c : Word) : isWs cfg c = true ↔ (c = 0x20#32 ∨ c ∈ cfg.ws) ∧ isStructural c = false := by
  simp [isWs]

/-- Any set of code points is that of a list, there being finitely many. -/
theorem exists_list_of_codePoints (p : Word → Bool) : ∃ ws : List Word, ∀ c, c ∈ ws ↔ p c = true := by
  refine ⟨((List.finRange (2 ^ 32)).map BitVec.ofFin).filter p, fun c => ?_⟩
  rw [List.mem_filter, and_iff_right_iff_imp]
  exact fun _ => List.mem_map.mpr ⟨c.toFin, List.mem_finRange _, rfl⟩

/-- A predicate that keeps the constraints, taken as the list of a configuration, is the `IsWs` of that configuration. -/
theorem isWs_of_mem_iff {p : Word → Bool} (hspace : p 0x20#32 = true) (hstruct : ∀ c, isStructural c = true → p c = false)
    {cfg : Config} (hws : ∀ c, c ∈ cfg.ws ↔ p c = true) (c : Word) : isWs cfg c = p c := by
  rw [Bool.eq_iff_iff, isWs_iff, hws]
  constructor
  · rintro ⟨rfl | hp, -⟩
    · exact hspace
    · exact hp
  · exact fun hp => ⟨.inr hp, by_contra fun hs => by simp [hstruct c (by simpa using hs)] at hp⟩

/-- The default parameters make the six ASCII characters whitespace. -/
theorem isWs_default_iff (c : Word) : isWs State.reset.cfg c = true ↔ c.toNat ∈ [0x09, 0x0A, 0x0B, 0x0C, 0x0D, 0x20] := by
  have hlist : c.toNat ∈ [0x09, 0x0A, 0x0B, 0x0C, 0x0D, 0x20] ↔ c = 0x20#32 ∨ c ∈ State.reset.cfg.ws := by
    simp only [State.reset, defaultConfig, List.mem_cons, List.not_mem_nil, or_false, BitVec.toNat_eq, BitVec.toNat_ofNat]
    omega
  have hplain : ∀ c ∈ [0x20#32, 0x09#32, 0x0A#32, 0x0B#32, 0x0C#32, 0x0D#32], isStructural c = false := by
    simp [isStructural, hexVal]
  rw [isWs_iff, hlist, and_iff_left_iff_imp]
  exact fun h => hplain c (List.mem_cons.mpr h)

/-- Settles O37: `isWs` excludes the structural code points whatever the list is, and any set of code points can be the list. -/
theorem whitespaceInstancesAreThoseOfTheSpec : Obligations.WhitespaceInstancesAreThoseOfTheSpec := by
  refine ⟨fun cfg c => ⟨(isWs_iff cfg _).mpr ⟨.inl rfl, by decide⟩, fun h => ?structural⟩, fun p hspace hp => ?predicate,
    isWs_default_iff⟩
  case structural =>
    simp [isWs, (isStructural_iff c).mpr h]
  case predicate =>
    obtain ⟨ws, hws⟩ := exists_list_of_codePoints p
    exact ⟨⟨ws, .lower⟩, isWs_of_mem_iff hspace (fun c hc => hp c ((isStructural_iff c).mp hc)) hws⟩

/-! ### The classes (R187) -/

/-- What the class of a code point says of it. -/
def CharClass.Describes (cfg : Config) (c : Word) : CharClass → Prop
  | .hex v => HexDigit c v.toNat
  | .hyphen => c = 0x2D#32
  | .openBrace => c = 0x7B#32
  | .closeBrace => c = 0x7D#32
  | .ws => isWs cfg c = true
  | .other => isStructural c = false ∧ isWs cfg c = false

theorem classify_describes (cfg : Config) (c : Word) : (classify cfg c).Describes cfg c := by
  unfold classify
  split
  next v hv => exact (hexVal_eq_some c v).mp hv
  next hnone =>
    split_ifs with hhyphen hopen hclose hws
    · exact hhyphen
    · exact hopen
    · exact hclose
    · exact hws
    · exact ⟨by simp [isStructural, hnone, hhyphen, hopen, hclose], by simpa using hws⟩

theorem describes_of_classify_eq {cfg : Config} {c : Word} {k : CharClass} (h : classify cfg c = k) : k.Describes cfg c :=
  h ▸ classify_describes cfg c

section
variable (cfg : Config) (c : Word)

theorem classify_eq_hex_iff (v : BitVec 4) : classify cfg c = .hex v ↔ HexDigit c v.toNat :=
  ⟨fun h => describes_of_classify_eq h, fun h => (classify_of_digit cfg c _ h).trans (by simp)⟩

theorem classify_eq_hyphen_iff : classify cfg c = .hyphen ↔ c = 0x2D#32 :=
  ⟨fun h => describes_of_classify_eq h, fun h => h ▸ classify_hyphen cfg⟩

theorem classify_eq_openBrace_iff : classify cfg c = .openBrace ↔ c = 0x7B#32 :=
  ⟨fun h => describes_of_classify_eq h, fun h => h ▸ classify_open cfg⟩

theorem classify_eq_closeBrace_iff : classify cfg c = .closeBrace ↔ c = 0x7D#32 :=
  ⟨fun h => describes_of_classify_eq h, fun h => h ▸ classify_close cfg⟩

theorem classify_eq_ws_iff : classify cfg c = .ws ↔ isWs cfg c = true :=
  ⟨fun h => describes_of_classify_eq h, classify_of_isWs cfg c⟩

theorem classify_eq_other_iff : classify cfg c = .other ↔ isStructural c = false ∧ isWs cfg c = false := by
  refine ⟨fun h => describes_of_classify_eq h, fun ⟨hstruct, hws⟩ => ?_⟩
  simp only [isStructural, Bool.or_eq_false_iff, beq_eq_false_iff_ne, Option.isSome_eq_false_iff, Option.isNone_iff_eq_none]
    at hstruct
  obtain ⟨⟨⟨hnone, hhyphen⟩, hopen⟩, hclose⟩ := hstruct
  simp [classify, hnone, hhyphen, hopen, hclose, hws]

end

/-- Settles O38, class by class. -/
theorem characterClassesAreThoseOfTheSpec : Obligations.CharacterClassesAreThoseOfTheSpec := by
  refine fun cfg c => ⟨classify_eq_hex_iff cfg c, classify_eq_hyphen_iff cfg c, classify_eq_openBrace_iff cfg c,
    classify_eq_closeBrace_iff cfg c, classify_eq_ws_iff cfg c, ?_⟩
  rw [classify_eq_other_iff, ← Bool.not_eq_true, isStructural_iff]
  simp only [not_or, not_exists, and_assoc]

end Sys2Proof.Machine
end

section
/-! PROOF. O39, O40, O41, O42, O44: the parser's commands, one by one (43_uuid_parse.md R189 to R195). -/

open Sys2Proof.Claims

namespace Sys2Proof.Machine

/-- A command that leaves a new parser and responds 0 does what `TouchesOnlyParser` says. -/
theorem exists_touchesOnlyParser {i : Instr} {s : State} {p : ParserUnit}
    (h : exec i s = .next ({ s with parser := p }.answer .ok 0)) :
    ∃ t, exec i s = .next t ∧ TouchesOnlyParser s t ∧ t.parser = p :=
  ⟨_, h, ⟨rfl, rfl, rfl, rfl, rfl, rfl, rfl⟩, rfl⟩

/-- Settles O39: the parser that P.START leaves is that of the reset. -/
theorem parseStartClearsTheParser : Obligations.ParseStartClearsTheParser := by
  intro s
  obtain ⟨t, hexec, htouch, hparser⟩ := exists_touchesOnlyParser (i := .pStart) (s := s) (p := State.reset.parser) rfl
  refine ⟨t, hexec, htouch, ?_⟩
  rw [hparser]
  exact ⟨rfl, rfl, rfl, rfl, by decide⟩

/-! ### One more digit (R191, R192) -/

section
variable {p : ParserUnit} (v : BitVec 4)

theorem ParserUnit.addDigit_pdig (h : p.pdig.toNat ≤ 31) : (p.addDigit v).pdig.toNat = p.pdig.toNat + 1 := by
  show (p.pdig + 1).toNat = _
  rw [BitVec.toNat_add]
  show (_ + 1) % 64 = _
  omega

theorem ParserUnit.addDigit_pst (h : p.pdig.toNat ≤ 31) :
    (p.addDigit v).pst = if p.pdig.toNat = 31 then .finished else .parsing := by
  have hcount : (p.pdig + 1).toNat = p.pdig.toNat + 1 := addDigit_pdig v h
  refine if_ctx_congr ?_ (fun _ => rfl) fun _ => rfl
  rw [BitVec.toNat_eq, hcount]
  show _ + 1 = 32 ↔ _
  omega

theorem ParserUnit.bufferDigit_addDigit (h : p.pdig.toNat ≤ 31) {k : Nat} (hk : k < 32) :
    bufferDigit (p.addDigit v).pbuf k = if k = p.pdig.toNat then v else bufferDigit p.pbuf k :=
  bufferDigit_writeDigit p.pbuf _ k v (Nat.lt_succ_of_le h) hk

end

/-- A digit of the buffer after a hex digit of value `v` was written, as a number. -/
theorem bufferDigit_writeDigit_toNat {c : Word} {v : Nat} (hv : HexDigit c v) (buf : Vector Byte 16) {k j : Nat} (hk : k < 32)
    (hj : j < 32) : (bufferDigit (writeDigit buf k (BitVec.ofNat 4 v)) j).toNat = if j = k then v else (bufferDigit buf j).toNat := by
  have hlt := (hexVal_of_digit c v hv).1
  rw [bufferDigit_writeDigit buf k j _ hk hj, apply_ite BitVec.toNat, BitVec.toNat_ofNat, Nat.mod_eq_of_lt hlt]

/-! ### P.CHAR (R190 to R193) -/

theorem codePoint_eq_extract (s : State) : s.codePoint = s.wdata.extractLsb' 0 32 := BitVec.setWidth_eq_extractLsb' (by decide)

/-- P.CHAR leaves the parser after one step on the class of its operand, and writes nothing else. -/
theorem exec_pChar_touchesOnlyParser (s : State) : ∃ t, exec .pChar s = .next t ∧ TouchesOnlyParser s t ∧
    t.parser = parserStep (classify s.cfg (s.wdata.extractLsb' 0 32)) s.parser :=
  exists_touchesOnlyParser (codePoint_eq_extract s ▸ rfl)

section
variable {p : ParserUnit}

theorem parserStep_initial (h : p.pst = .initial) (k : CharClass) : parserStep k p = stepInitial k p := by simp [parserStep, h]

theorem parserStep_parsing (h : p.pst = .parsing) (k : CharClass) : parserStep k p = stepParsing k p := by simp [parserStep, h]

theorem parserStep_finished (h : p.pst = .finished) (k : CharClass) : parserStep k p = stepFinished k p := by simp [parserStep, h]

theorem parserStep_error (h : p.pst = .error) (k : CharClass) : parserStep k p = p := by simp [parserStep, h]

end

theorem stepInitial_eq_fail {k : CharClass} (hhex : ∀ v, k ≠ .hex v) (hopen : k ≠ .openBrace) (hws : k ≠ .ws) (p : ParserUnit) :
    stepInitial k p = p.fail := by
  cases k with
  | hex v => exact absurd rfl (hhex v)
  | openBrace => exact absurd rfl hopen
  | ws => exact absurd rfl hws
  | hyphen | closeBrace | other => rfl

theorem stepParsing_separator {k : CharClass} (h : k = .ws ∨ k = .hyphen) (p : ParserUnit) :
    stepParsing k p = if p.pdig.toNat % 2 = 0 then p else p.fail := by
  rcases h with rfl | rfl <;> rfl

theorem stepParsing_eq_fail {k : CharClass} (hhex : ∀ v, k ≠ .hex v) (hhyphen : k ≠ .hyphen) (hws : k ≠ .ws) (p : ParserUnit) :
    stepParsing k p = p.fail := by
  cases k with
  | hex v => exact absurd rfl (hhex v)
  | hyphen => exact absurd rfl hhyphen
  | ws => exact absurd rfl hws
  | openBrace | closeBrace | other => rfl

theorem stepFinished_closeBrace (p : ParserUnit) :
    stepFinished .closeBrace p = if p.pbo = true ∧ p.pbc = false then { p with pbc := true } else p.fail := by
  simp [stepFinished]

theorem stepFinished_eq_fail {k : CharClass} (hclose : k ≠ .closeBrace) (hws : k ≠ .ws) (p : ParserUnit) :
    stepFinished k p = p.fail := by
  cases k with
  | closeBrace => exact absurd rfl hclose
  | ws => exact absurd rfl hws
  | hex _ | hyphen | openBrace | other => rfl

section
variable (cfg : Config) {c : Word}

theorem classify_ne_hex (h : ∀ v, ¬ HexDigit c v) (v : BitVec 4) : classify cfg c ≠ .hex v :=
  mt (classify_eq_hex_iff cfg c v).mp (h _)

theorem classify_ne_ws {cfg : Config} (h : isWs cfg c = false) : classify cfg c ≠ .ws :=
  mt (classify_eq_ws_iff cfg c).mp (by simp [h])

end

/-- Settles O40: `stepInitial` on the class of the code point. -/
theorem characterStepInInitial : Obligations.CharacterStepInInitial := by
  intro s hpst
  obtain ⟨t, hexec, htouch, hparser⟩ := exec_pChar_touchesOnlyParser s
  rw [parserStep_initial hpst] at hparser
  refine ⟨t, hexec, htouch, fun hws => ?ws, fun hopen => ?openBrace, fun v hv => ?digit, fun hws hopen hhex => ?other⟩
  case ws => rw [hparser, classify_of_isWs _ _ hws]; rfl
  case openBrace => rw [hparser, hopen, classify_open]; rfl
  case digit =>
    rw [hparser, classify_of_digit _ _ v hv]
    exact ⟨rfl, rfl, rfl, rfl, fun k hk => bufferDigit_writeDigit_toNat hv s.parser.pbuf (by decide) hk⟩
  case other =>
    exact hparser.trans (stepInitial_eq_fail (classify_ne_hex _ hhex) (mt (classify_eq_openBrace_iff _ _).mp hopen)
      (classify_ne_ws hws) s.parser)

/-- Settles O41: `stepParsing` on the class of the code point, with the digit count that the invariant gives. -/
theorem characterStepInParsing : Obligations.CharacterStepInParsing := by
  intro s hpst ⟨hcount, _⟩
  have hle : s.parser.pdig.toNat ≤ 31 := by
    simp only [ParserUnit.CountOk, hpst] at hcount
    exact hcount.2
  obtain ⟨t, hexec, htouch, hparser⟩ := exec_pChar_touchesOnlyParser s
  rw [parserStep_parsing hpst] at hparser
  refine ⟨t, hexec, htouch, fun v hv => ?digit, fun hsep => ?separator, fun hws hhyphen hhex => ?other⟩
  case digit =>
    rw [classify_of_digit _ _ v hv] at hparser
    have hadd : t.parser = s.parser.addDigit (BitVec.ofNat 4 v) := hparser
    rw [hadd]
    exact ⟨ParserUnit.addDigit_pst _ hle, ParserUnit.addDigit_pdig _ hle, rfl, rfl,
      fun k hk => bufferDigit_writeDigit_toNat hv s.parser.pbuf (Nat.lt_succ_of_le hle) hk⟩
  case separator =>
    have hclass := hsep.imp (classify_eq_ws_iff s.cfg _).mpr (classify_eq_hyphen_iff s.cfg _).mpr
    exact hparser.trans (stepParsing_separator hclass s.parser)
  case other =>
    exact hparser.trans (stepParsing_eq_fail (classify_ne_hex _ hhex) (mt (classify_eq_hyphen_iff _ _).mp hhyphen)
      (classify_ne_ws hws) s.parser)

/-- Settles O42: `stepFinished` on the class of the code point. -/
theorem characterStepInFinished : Obligations.CharacterStepInFinished := by
  intro s hpst
  obtain ⟨t, hexec, htouch, hparser⟩ := exec_pChar_touchesOnlyParser s
  rw [parserStep_finished hpst] at hparser
  refine ⟨t, hexec, htouch, fun hws => ?ws, fun hclose => ?closeBrace, fun hws hclose => ?other⟩
  case ws => rw [hparser, classify_of_isWs _ _ hws]; rfl
  case closeBrace => rw [hparser, hclose, classify_close, stepFinished_closeBrace]; rfl
  case other =>
    exact hparser.trans (stepFinished_eq_fail (mt (classify_eq_closeBrace_iff _ _).mp hclose) (classify_ne_ws hws) s.parser)

/-! ### P.END (R195) -/

theorem ParserUnit.accepts_iff (p : ParserUnit) : p.accepts = true ↔ p.pst = .finished ∧ p.pbo = p.pbc := by
  simp [accepts]

theorem exec_pEnd_of_accepts {s : State} (h : s.parser.accepts = true) (rd : UReg) :
    exec (.pEnd rd) s = .next ((s.writeU rd (identOfBytes s.parser.pbuf)).answer .ok 1) := if_pos h

theorem exec_pEnd_of_not_accepts {s : State} (h : ¬ s.parser.accepts = true) (rd : UReg) :
    exec (.pEnd rd) s = .next (s.answer .ok 0) := if_neg h

/-- Byte `i` of the value delivered is `PBUF[i]`. -/
theorem byteAt_identOfBytes (buf : Vector Byte 16) {i : Nat} (hi : i < 16) : byteAt (identOfBytes buf) i = buf[i] :=
  (byteOf_eq_byteAt _ i).symm.trans (byteOf_identOfBytes buf i hi)

/-- Settles O44: P.END is one register write or one answer. -/
theorem parseEndDeliversTheValue : Obligations.ParseEndDeliversTheValue := by
  refine fun s rd => ⟨fun h => ?success, fun h => ?failure⟩
  case success =>
    exact ⟨_, _, exec_pEnd_of_accepts (s.parser.accepts_iff.mpr h) rd,
      ⟨fun r => s.readU_writeU rd r _, rfl, rfl, rfl, rfl, rfl, rfl, rfl⟩, fun i => byteAt_identOfBytes s.parser.pbuf i.isLt⟩
  case failure => exact exec_pEnd_of_not_accepts (mt s.parser.accepts_iff.mp h) rd

end Sys2Proof.Machine
end

section
/-! SUPPORT. A text through the parser: one step per code point, and the run of P.CHAR that does it (43_uuid_parse.md R185, R190). -/

namespace Sys2Proof.Machine

/-- The parser after a text, from the parser `p`. -/
def parseText (cfg : Config) (cs : List Word) (p : ParserUnit) : ParserUnit :=
  cs.foldl (fun q c => parserStep (classify cfg c) q) p

section
variable (cfg : Config) (p : ParserUnit)

@[simp] theorem parseText_nil : parseText cfg [] p = p := rfl

@[simp] theorem parseText_cons (c : Word) (cs : List Word) :
    parseText cfg (c :: cs) p = parseText cfg cs (parserStep (classify cfg c) p) := rfl

@[simp] theorem parseText_append (cs ds : List Word) : parseText cfg (cs ++ ds) p = parseText cfg ds (parseText cfg cs p) :=
  List.foldl_append

end

section
variable {cfg : Config} {p : ParserUnit}

/-- A text none of whose code points moves the parser leaves it as it was. -/
theorem parseText_eq_self {cs : List Word} (h : ∀ c ∈ cs, parserStep (classify cfg c) p = p) : parseText cfg cs p = p := by
  induction cs with
  | nil => rfl
  | cons c cs ih =>
    obtain ⟨hc, hcs⟩ := List.forall_mem_cons.mp h
    rw [parseText_cons, hc, ih hcs]

theorem parseText_of_error (h : p.pst = .error) (cs : List Word) : parseText cfg cs p = p :=
  parseText_eq_self fun _ _ => parserStep_error h _

end

/-- The run of P.CHAR of each code point leaves the parser after the text, and neither a register nor the SHA-1 unit changes. -/
theorem runAll_parseChars (cs : List Word) (s : State) : ∃ t, runAll (parseChars cs) s = .next t ∧
    t.parser = parseText s.cfg cs s.parser ∧ t.u = s.u ∧ t.sha = s.sha := by
  induction cs generalizing s with
  | nil => exact ⟨s, runAll_nil s, rfl, rfl, rfl⟩
  | cons c cs ih =>
    obtain ⟨q, hexec, ⟨hu, hsha, hcfg, -⟩, hparser⟩ := exec_pChar_touchesOnlyParser (s.present (c.setWidth 128))
    obtain ⟨t, hrun, ht, htu, htsha⟩ := ih q
    have hdata : ((c.setWidth 128).extractLsb' 0 32 : Word) = c := by
      rw [← BitVec.setWidth_eq_extractLsb' (by decide)]
      simp
    simp only [State.present_wdata, State.present_cfg, State.present_parser, hdata] at hparser
    refine ⟨t, (runAll_cons _ _ s q ((runAction_command rfl _ s).trans hexec)).trans hrun, ?_, htu.trans hu, htsha.trans hsha⟩
    rw [ht, hcfg, hparser]
    rfl

/-- U.PARSE is P.END in a state whose parser is that after the text from P.START, with the registers and the SHA-1 unit as before. -/
theorem runAll_pseudoParse (rd : UReg) (cs : List Word) (s : State) : ∃ q : State,
    q.parser = parseText s.cfg cs State.reset.parser ∧ q.u = s.u ∧ q.sha = s.sha ∧
      ∀ t, exec (.pEnd rd) q = .next t → runAll (pseudoParse rd cs) s = .next t := by
  obtain ⟨q, hrun, hq, hu, hsha⟩ := runAll_parseChars cs ({ s.present 0 with parser := State.reset.parser }.answer .ok 0)
  refine ⟨q.present 0, hq, hu, hsha, fun t ht => ?_⟩
  calc runAll (pseudoParse rd cs) s
      = runAll (parseChars cs ++ [command (.pEnd rd)]) _ := runAll_cons _ _ s _ (runAction_command rfl 0 s)
    _ = runAll [command (.pEnd rd)] q := runAll_append _ _ _ q hrun
    _ = runAll [] t := runAll_cons _ _ q t ((runAction_command rfl 0 q).trans ht)

end Sys2Proof.Machine
end

section
/-! PROOF. O43: ERROR is terminal (43_uuid_parse.md R194). -/

namespace Sys2Proof.Machine

/-- Of all commands P.START and CORE.RESET alone leave ERROR. -/
theorem parserAfter_pst_eq_error_iff (i : Instr) {s : State} (h : s.parser.pst = .error) :
    (parserAfter i s).pst = .error ↔ i ≠ .pStart ∧ i ≠ .coreReset := by
  cases i with
  | pStart | coreReset => simp [parserAfter, State.reset]
  | pChar => simp [parserAfter, parserStep_error h, h]
  | _ => simp [parserAfter, h]

/-- Settles O43: in ERROR no code point moves the parser; a command leaves `parserAfter`; the reset input leaves INITIAL. -/
theorem errorIsTerminalForTheParse : Obligations.ErrorIsTerminalForTheParse := by
  refine ⟨fun s cs h => ?text, fun i s h => ?command, fun s rest => ?reset⟩
  case text =>
    obtain ⟨t, hrun, hparser, hu, hsha⟩ := runAll_parseChars cs s
    exact ⟨t, hrun, hparser.trans (parseText_of_error h cs), hu, hsha⟩
  case command =>
    obtain ⟨u, r, -, hexec⟩ := exec_eq_after i s
    exact ⟨_, hexec, parserAfter_pst_eq_error_iff i h⟩
  case reset => exact ⟨_, step_cons _ .reset rest rfl, by simp⟩

end Sys2Proof.Machine
end

section
/-! SUPPORT. A parser that has read whole bytes, and what a pair of digits and a run of separators do to it (10_state.md R31 to R34,
43_uuid_parse.md R191, R192). -/

namespace Sys2Proof.Machine

/-! ### A parser that has read whole bytes -/

/-- The state of a parse that has read `n` whole bytes (R31, R32). -/
def phaseOf (n : Nat) : ParseState := if n = 0 then .initial else if n < 16 then .parsing else .finished

theorem phaseOf_parsing {n : Nat} (h0 : 0 < n) (hlt : n < 16) : phaseOf n = .parsing := by
  rw [phaseOf, if_neg (by omega), if_pos hlt]

/-- The parser has read the bytes `bs`, after an opening brace if `opened`, and no closing one. -/
structure ParserUnit.Holds (p : ParserUnit) (opened : Bool) (bs : List Byte) : Prop where
  pst : p.pst = phaseOf bs.length
  pdig : p.pdig.toNat = 2 * bs.length
  pbo : p.pbo = opened
  pbc : p.pbc = false
  digits : ∀ k < 2 * bs.length, bufferDigit p.pbuf k = nibble (bs.getD (k / 2) 0) k

/-- P.START leaves a parser that has read nothing. -/
theorem reset_parser_holds : State.reset.parser.Holds false [] := ⟨rfl, rfl, rfl, rfl, by simp⟩

/-- The first opening brace before the first digit. -/
theorem ParserUnit.Holds.parserStep_openBrace {p : ParserUnit} (h : p.Holds false []) :
    (parserStep .openBrace p).Holds true [] := by
  have hstep : parserStep .openBrace p = { p with pbo := true } := by
    rw [parserStep_initial h.pst, stepInitial, if_neg (by simp [h.pbo])]
  rw [hstep]
  exact ⟨h.pst, h.pdig, rfl, h.pbc, h.digits⟩

/-- The buffer of a parser that has read 16 bytes is those bytes. -/
theorem ParserUnit.Holds.pbuf_eq {p : ParserUnit} {o : Bool} {bs : List Byte} (h : p.Holds o bs) (hlen : bs.length = 16) :
    p.pbuf = Vector.ofFn fun i => bs.getD i.val 0 := by
  refine buffer_ext_digits _ _ fun k hk => ?_
  rw [h.digits k (by omega), bufferDigit]
  have hk2 : k / 2 < 16 := by omega
  simp [List.getD_eq_getElem?_getD, hk2]

/-! ### A pair of digits -/

/-- The nibbles of the byte that two digits spell. -/
theorem nibble_ofNat_pair (x : Nat) {y : Nat} (hy : y < 16) (k : Nat) :
    nibble (BitVec.ofNat 8 (16 * x + y)) k = if k % 2 = 0 then BitVec.ofNat 4 x else BitVec.ofNat 4 y := by
  unfold nibble
  refine if_ctx_congr Iff.rfl (fun _ => ?_) fun _ => ?_
  all_goals
    apply BitVec.eq_of_toNat_eq
    simp only [BitVec.toNat_setWidth, BitVec.toNat_ushiftRight, BitVec.toNat_ofNat, Nat.shiftRight_eq_div_pow]
    omega

theorem phaseOf_succ {n : Nat} (hlt : n < 16) : phaseOf (n + 1) = if 2 * n + 1 = 31 then .finished else .parsing := by
  rw [phaseOf, if_neg (by omega)]
  by_cases hlast : n = 15
  · rw [if_neg (by omega), if_pos (by omega)]
  · rw [if_pos (by omega), if_neg (by omega)]

section
variable {p : ParserUnit} {o : Bool} {bs : List Byte}

/-- Before the last byte is complete a hex digit is taken as the next digit, in INITIAL as in PARSING. -/
theorem ParserUnit.Holds.parserStep_hex (h : p.Holds o bs) (hlt : bs.length < 16) (v : BitVec 4) :
    parserStep (.hex v) p = p.addDigit v := by
  by_cases h0 : bs.length = 0
  · have hpdig : p.pdig = 0 := BitVec.eq_of_toNat_eq (by rw [h.pdig, h0]; rfl)
    rw [parserStep_initial (by rw [h.pst, phaseOf, if_pos h0]), stepInitial_hex hpdig]
  · rw [parserStep_parsing (h.pst.trans (phaseOf_parsing (by omega) hlt))]
    rfl

/-- In the middle of a byte. -/
theorem ParserUnit.Holds.addDigit_middle (h : p.Holds o bs) (hlt : bs.length < 16) (v : BitVec 4) :
    (p.addDigit v).pst = .parsing ∧ (p.addDigit v).pdig.toNat = 2 * bs.length + 1 := by
  have hpdig := h.pdig
  rw [ParserUnit.addDigit_pst v (by omega), ParserUnit.addDigit_pdig v (by omega), if_neg (by omega), hpdig]
  exact ⟨rfl, rfl⟩

/-- Two digits are one byte more. -/
theorem ParserUnit.Holds.addByte (h : p.Holds o bs) (hlt : bs.length < 16) (x : Nat) {y : Nat} (hy : y < 16) :
    ((p.addDigit (BitVec.ofNat 4 x)).addDigit (BitVec.ofNat 4 y)).Holds o (bs ++ [BitVec.ofNat 8 (16 * x + y)]) := by
  have hpdig := h.pdig
  obtain ⟨-, hmiddle⟩ := h.addDigit_middle hlt (BitVec.ofNat 4 x)
  have hlen : (bs ++ [BitVec.ofNat 8 (16 * x + y)]).length = bs.length + 1 := by simp
  refine ⟨?pst, ?pdig, h.pbo, h.pbc, fun k hk => ?digits⟩
  case pst =>
    rw [ParserUnit.addDigit_pst _ (by omega), hmiddle, hlen, phaseOf_succ hlt]
  case pdig =>
    rw [ParserUnit.addDigit_pdig _ (by omega), hmiddle, hlen]
    rfl
  case digits =>
    rw [hlen] at hk
    rw [ParserUnit.bufferDigit_addDigit _ (by omega) (by omega), ParserUnit.bufferDigit_addDigit _ (by omega) (by omega), hmiddle,
      hpdig]
    by_cases hnew : k < 2 * bs.length
    · rw [if_neg (by omega), if_neg (by omega), h.digits k hnew, List.getD_append _ _ _ _ (by omega)]
    · rw [show k / 2 = bs.length by omega, List.getD_append_right _ _ _ _ le_rfl, Nat.sub_self, List.getD_cons_zero,
        nibble_ofNat_pair x hy]
      by_cases hhigh : k = 2 * bs.length
      · rw [if_neg (by omega), if_pos hhigh, if_pos (by omega)]
      · rw [if_pos (by omega), if_neg (by omega)]

/-- A pair of digits in a text. -/
theorem ParserUnit.Holds.parseText_pair (h : p.Holds o bs) (hlt : bs.length < 16) {cfg : Config} {hi lo : Word} {x y : Nat}
    (hx : HexDigit hi x) (hy : HexDigit lo y) : ∃ q : ParserUnit, q.Holds o (bs ++ [BitVec.ofNat 8 (16 * x + y)]) ∧
      ∀ rest, parseText cfg (hi :: lo :: rest) p = parseText cfg rest q := by
  refine ⟨_, h.addByte hlt x (hexVal_of_digit lo y hy).1, fun rest => ?_⟩
  rw [parseText_cons, parseText_cons, classify_of_digit cfg hi x hx, classify_of_digit cfg lo y hy, h.parserStep_hex hlt,
    parserStep_parsing (h.addDigit_middle hlt _).1]
  rfl

/-! ### Runs that do not move the parser -/

theorem ParserUnit.Holds.parsing (h : p.Holds o bs) (h0 : 0 < bs.length) (hlt : bs.length < 16) : p.pst = .parsing :=
  h.pst.trans (phaseOf_parsing h0 hlt)

theorem ParserUnit.Holds.finished (h : p.Holds o bs) (hlen : bs.length = 16) : p.pst = .finished := by
  rw [h.pst, hlen]
  rfl

theorem parserStep_ws (h : p.pst = .initial ∨ p.pst = .finished) {cfg : Config} {c : Word} (hc : isWs cfg c = true) :
    parserStep (classify cfg c) p = p := by
  rw [classify_of_isWs cfg c hc]
  rcases h with h | h
  · rw [parserStep_initial h]; rfl
  · rw [parserStep_finished h]; rfl

/-- Between two bytes a separator does not move the parser. -/
theorem ParserUnit.Holds.parserStep_separator (h : p.Holds o bs) (h0 : 0 < bs.length) (hlt : bs.length < 16) {cfg : Config} {c : Word}
    (hc : c = 0x2D#32 ∨ isWs cfg c = true) : parserStep (classify cfg c) p = p := by
  have hclass := hc.symm.imp (classify_eq_ws_iff cfg c).mpr (classify_eq_hyphen_iff cfg c).mpr
  rw [parserStep_parsing (h.parsing h0 hlt), stepParsing_separator hclass, h.pdig, if_pos (by omega)]

end

end Sys2Proof.Machine
end

section
/-! PROOF. O45: U.PARSE accepts exactly the dialects of R198 and delivers the value they spell (43_uuid_parse.md R198, R199). -/

open Sys2Proof.Claims

namespace Sys2Proof.Machine

section
variable {cfg : Config} {p : ParserUnit} {o : Bool} {bs : List Byte}

/-! ### Every dialect is accepted -/

/-- What may follow the last digit: the closing brace if one was opened, and whitespace. -/
def Closes (cfg : Config) (opened : Bool) (cs : List Word) : Prop :=
  match opened with
  | false => WsRun cfg cs
  | true => ∃ inner after, WsRun cfg inner ∧ WsRun cfg after ∧ cs = inner ++ 0x7D#32 :: after

theorem DigitPairs.length_pos {bytes : List Byte} {body : List Word} (h : DigitPairs cfg bytes body) : 0 < bytes.length := by
  cases h <;> simp

theorem parseText_wsRun (h : p.pst = .initial ∨ p.pst = .finished) {cs : List Word} (hcs : WsRun cfg cs) : parseText cfg cs p = p :=
  parseText_eq_self fun c hc => parserStep_ws h (hcs c hc)

/-- The pairs of a body are read byte by byte. -/
theorem ParserUnit.Holds.parseText_digitPairs {bytes : List Byte} {body : List Word} (hbody : DigitPairs cfg bytes body)
    (h : p.Holds o bs) (hlen : bs.length + bytes.length ≤ 16) : (parseText cfg body p).Holds o (bs ++ bytes) := by
  induction hbody generalizing p bs with
  | last hi lo x y hx hy =>
    obtain ⟨q, hq, hpair⟩ := h.parseText_pair (Nat.lt_of_succ_le hlen) hx hy
    rw [hpair]
    exact hq
  | more hi lo x y sep rest bytes hx hy hsep hrest ih =>
    have hpos := hrest.length_pos
    rw [List.length_cons] at hlen
    obtain ⟨q, hq, hpair⟩ := h.parseText_pair (cfg := cfg) (by omega) hx hy
    have hqlen : (bs ++ [BitVec.ofNat 8 (16 * x + y)]).length = bs.length + 1 := by simp
    have hskip : parseText cfg sep q = q :=
      parseText_eq_self fun c hc => hq.parserStep_separator (by omega) (by omega) (hsep c hc)
    rw [hpair, parseText_append, hskip, List.append_cons]
    exact ih hq (by omega)

/-- The closing brace that matches the opening one. -/
theorem ParserUnit.Holds.parserStep_closeBrace (h : p.Holds true bs) (hlen : bs.length = 16) :
    parserStep .closeBrace p = { p with pbc := true } := by
  rw [parserStep_finished (h.finished hlen), stepFinished_closeBrace, if_pos ⟨h.pbo, h.pbc⟩]

theorem ParserUnit.Holds.accepts_of_closes (h : p.Holds o bs) (hlen : bs.length = 16) {after : List Word} (hafter : Closes cfg o after) :
    (parseText cfg after p).accepts = true ∧ (parseText cfg after p).pbuf = p.pbuf := by
  have hfin := h.finished hlen
  cases o with
  | false =>
    rw [parseText_wsRun (.inr hfin) hafter, ParserUnit.accepts_iff]
    exact ⟨⟨hfin, h.pbo.trans h.pbc.symm⟩, rfl⟩
  | true =>
    obtain ⟨inner, after, hinner, hafter, rfl⟩ := hafter
    rw [parseText_append, parseText_wsRun (.inr hfin) hinner, parseText_cons, classify_close, h.parserStep_closeBrace hlen,
      parseText_wsRun (p := { p with pbc := true }) (.inr hfin) hafter, ParserUnit.accepts_iff]
    exact ⟨⟨hfin, h.pbo⟩, rfl⟩

/-- From the first digit on. -/
theorem ParserUnit.Holds.accepts_of_digitPairs (h : p.Holds o []) {bytes : List Byte} {body after : List Word} (hlen : bytes.length = 16)
    (hbody : DigitPairs cfg bytes body) (hafter : Closes cfg o after) : (parseText cfg (body ++ after) p).accepts = true ∧
      (parseText cfg (body ++ after) p).pbuf = Vector.ofFn fun i => bytes.getD i.val 0 := by
  have hq : (parseText cfg body p).Holds o bytes := h.parseText_digitPairs hbody (by simp [hlen])
  rw [parseText_append, ← hq.pbuf_eq hlen]
  exact hq.accepts_of_closes hlen hafter

/-- A text in one of the dialects leaves a parser that accepts, with the bytes it spells in the buffer. -/
theorem accepts_of_spells {bytes : List Byte} {cs : List Word} (h : Spells cfg bytes cs) :
    (parseText cfg cs State.reset.parser).accepts = true ∧
      (parseText cfg cs State.reset.parser).pbuf = Vector.ofFn fun i => bytes.getD i.val 0 := by
  obtain ⟨hlen, before, body, after, hbefore, hbody, hafter, rfl | ⟨inner, inner', hinner, hinner', rfl⟩⟩ := h
  case inl =>
    rw [List.append_assoc, parseText_append, parseText_wsRun (.inl rfl) hbefore]
    exact reset_parser_holds.accepts_of_digitPairs hlen hbody hafter
  case inr =>
    have hopen := reset_parser_holds.parserStep_openBrace
    have htext : before ++ [0x7B#32] ++ inner ++ body ++ inner' ++ [0x7D#32] ++ after =
        before ++ 0x7B#32 :: (inner ++ (body ++ (inner' ++ 0x7D#32 :: after))) := by simp
    rw [htext, parseText_append, parseText_wsRun (.inl rfl) hbefore, parseText_cons, classify_open, parseText_append,
      parseText_wsRun (.inl hopen.pst) hinner]
    exact hopen.accepts_of_digitPairs hlen hbody ⟨inner', after, hinner', hafter, rfl⟩

/-! ### Nothing else is accepted -/

/-- Nothing is accepted from ERROR. -/
theorem not_accepts_of_fail {k : CharClass} {cs : List Word} (hfail : parserStep k p = p.fail) :
    ¬ (parseText cfg cs (parserStep k p)).accepts = true := by
  rw [hfail, parseText_of_error rfl, ParserUnit.accepts_iff]
  rintro ⟨hpst, -⟩
  cases hpst

theorem finished_of_accepts (h : p.accepts = true) : p.pst = .finished := (p.accepts_iff.mp h).1

/-- An accepted text begins with a run of code points of the kind `P`, which do not move the parser; then comes one of another kind, or
the parser accepts at once. -/
theorem exists_run_of_accepts {P : Word → Prop} (hkeep : ∀ c, P c → parserStep (classify cfg c) p = p) {cs : List Word}
    (h : (parseText cfg cs p).accepts = true) : ∃ run rest, cs = run ++ rest ∧ (∀ c ∈ run, P c) ∧
      ((rest = [] ∧ p.accepts = true) ∨ ∃ c cs', rest = c :: cs' ∧ ¬ P c ∧ (parseText cfg (c :: cs') p).accepts = true) := by
  induction cs with
  | nil => exact ⟨[], [], rfl, by simp, .inl ⟨rfl, h⟩⟩
  | cons c cs ih =>
    by_cases hc : P c
    · rw [parseText_cons, hkeep c hc] at h
      obtain ⟨run, rest, rfl, hrun, hrest⟩ := ih h
      exact ⟨c :: run, rest, rfl, List.forall_mem_cons.mpr ⟨hc, hrun⟩, hrest⟩
    · exact ⟨[], c :: cs, rfl, by simp, .inr ⟨c, cs, rfl, hc, h⟩⟩

/-- Where no closing brace can be taken, only whitespace may follow. -/
theorem wsRun_of_accepts (hfin : p.pst = .finished) (hbrace : ¬ (p.pbo = true ∧ p.pbc = false)) {cs : List Word}
    (h : (parseText cfg cs p).accepts = true) : WsRun cfg cs := by
  obtain ⟨run, rest, rfl, hrun, ⟨rfl, -⟩ | ⟨c, cs', rfl, hc, hacc⟩⟩ :=
    exists_run_of_accepts (P := fun c => isWs cfg c = true) (fun c hc => parserStep_ws (.inr hfin) hc) h
  · rwa [List.append_nil]
  · refine absurd hacc (not_accepts_of_fail ?_)
    rw [parserStep_finished hfin]
    by_cases hclose : classify cfg c = .closeBrace
    · rw [hclose, stepFinished_closeBrace, if_neg hbrace]
    · exact stepFinished_eq_fail hclose (mt (classify_eq_ws_iff cfg c).mp hc) p

theorem ParserUnit.Holds.closes_of_accepts (hp : p.Holds o bs) (hlen : bs.length = 16) {cs : List Word}
    (h : (parseText cfg cs p).accepts = true) : Closes cfg o cs := by
  have hfin := hp.finished hlen
  have hpbo := hp.pbo
  cases o with
  | false => exact wsRun_of_accepts hfin (by simp [hpbo]) h
  | true =>
    obtain ⟨inner, rest, rfl, hinner, ⟨-, hacc⟩ | ⟨c, after, rfl, hc, hacc⟩⟩ :=
      exists_run_of_accepts (P := fun c => isWs cfg c = true) (fun c hc => parserStep_ws (.inr hfin) hc) h
    · simp [ParserUnit.accepts_iff, hpbo, hp.pbc] at hacc
    · by_cases hclose : classify cfg c = .closeBrace
      · obtain rfl := (classify_eq_closeBrace_iff cfg c).mp hclose
        rw [parseText_cons, hclose, hp.parserStep_closeBrace hlen] at hacc
        exact ⟨inner, after, hinner, wsRun_of_accepts (p := { p with pbc := true }) hfin (by simp) hacc, rfl⟩
      · refine absurd hacc (not_accepts_of_fail ?_)
        rw [parserStep_finished hfin, stepFinished_eq_fail hclose (mt (classify_eq_ws_iff cfg c).mp hc)]

/-- The digit that begins a byte is followed by the one that completes it. -/
theorem ParserUnit.Holds.exists_low_of_accepts (hp : p.Holds o bs) (hlt : bs.length < 16) {hi : Word} {x : Nat}
    (hx : HexDigit hi x) {cs : List Word} (h : (parseText cfg (hi :: cs) p).accepts = true) :
    ∃ lo y rest, HexDigit lo y ∧ cs = lo :: rest := by
  rw [parseText_cons, classify_of_digit cfg hi x hx, hp.parserStep_hex hlt] at h
  obtain ⟨hpst, hpdig⟩ := hp.addDigit_middle hlt (BitVec.ofNat 4 x)
  cases cs with
  | nil => exact absurd (hpst.symm.trans (finished_of_accepts h)) (by decide)
  | cons lo rest =>
    by_cases hlo : ∃ y, HexDigit lo y
    · obtain ⟨y, hy⟩ := hlo
      exact ⟨lo, y, rest, hy, rfl⟩
    · have hhex := classify_ne_hex cfg (not_exists.mp hlo)
      refine absurd h (not_accepts_of_fail ?_)
      rw [parserStep_parsing hpst]
      by_cases hsep : classify cfg lo = .ws ∨ classify cfg lo = .hyphen
      · rw [stepParsing_separator hsep, hpdig, if_neg (by omega)]
      · rw [not_or] at hsep
        exact stepParsing_eq_fail hhex hsep.2 hsep.1 _

/-- Between two bytes an accepted text goes on with separators and a hex digit. -/
theorem ParserUnit.Holds.exists_separators_of_accepts (hp : p.Holds o bs) (h0 : 0 < bs.length) (hlt : bs.length < 16) {cs : List Word}
    (h : (parseText cfg cs p).accepts = true) : ∃ sep hi x rest, SeparatorRun cfg sep ∧ HexDigit hi x ∧ cs = sep ++ hi :: rest ∧
      (parseText cfg (hi :: rest) p).accepts = true := by
  have hpst := hp.parsing h0 hlt
  obtain ⟨sep, rest, rfl, hsep, ⟨-, hacc⟩ | ⟨c, cs', rfl, hc, hacc⟩⟩ := exists_run_of_accepts
    (P := fun c => c = 0x2D#32 ∨ isWs cfg c = true) (fun c hc => hp.parserStep_separator h0 hlt hc) h
  · exact absurd (hpst.symm.trans (finished_of_accepts hacc)) (by decide)
  · by_cases hhex : ∃ x, HexDigit c x
    · obtain ⟨x, hx⟩ := hhex
      exact ⟨sep, c, x, cs', hsep, hx, rfl, hacc⟩
    · obtain ⟨hhyphen, hws⟩ := not_or.mp hc
      refine absurd hacc (not_accepts_of_fail ?_)
      rw [parserStep_parsing hpst]
      exact stepParsing_eq_fail (classify_ne_hex cfg (not_exists.mp hhex)) (mt (classify_eq_hyphen_iff cfg c).mp hhyphen)
        (mt (classify_eq_ws_iff cfg c).mp hws) p

/-- From the first digit of a byte on, an accepted text is the digits of the bytes missing, and the end. By induction on how many bytes
are missing after that one. -/
theorem ParserUnit.Holds.exists_digitPairs_of_accepts {n : Nat} (hp : p.Holds o bs) (hn : bs.length + (n + 1) = 16) {hi : Word} {x : Nat}
    (hx : HexDigit hi x) {cs : List Word} (h : (parseText cfg (hi :: cs) p).accepts = true) :
    ∃ bytes body after, bytes.length = n + 1 ∧ DigitPairs cfg bytes body ∧ Closes cfg o after ∧ hi :: cs = body ++ after := by
  induction n generalizing p bs hi x cs with
  | zero =>
    obtain ⟨lo, y, rest, hy, rfl⟩ := hp.exists_low_of_accepts (by omega) hx h
    obtain ⟨q, hq, hpair⟩ := hp.parseText_pair (cfg := cfg) (by omega) hx hy
    rw [hpair] at h
    exact ⟨_, _, rest, rfl, .last hi lo x y hx hy, hq.closes_of_accepts (by simpa using hn) h, rfl⟩
  | succ n ih =>
    obtain ⟨lo, y, rest, hy, rfl⟩ := hp.exists_low_of_accepts (by omega) hx h
    obtain ⟨q, hq, hpair⟩ := hp.parseText_pair (cfg := cfg) (by omega) hx hy
    have hqlen : (bs ++ [BitVec.ofNat 8 (16 * x + y)]).length = bs.length + 1 := by simp
    rw [hpair] at h
    obtain ⟨sep, hi', x', rest', hsep, hx', rfl, hacc⟩ := hq.exists_separators_of_accepts (by omega) (by omega) h
    obtain ⟨bytes, body, after, hlen, hbody, hafter, hcs⟩ := ih hq (by omega) hx' hacc
    refine ⟨_ :: bytes, _, after, congrArg Nat.succ hlen, .more hi lo x y sep body bytes hx hy hsep hbody, hafter, ?_⟩
    simp [hcs]

/-- Before the first digit an accepted text begins with whitespace, and goes on with that digit or with the first opening brace. -/
theorem ParserUnit.Holds.exists_start_of_accepts (hp : p.Holds o []) {cs : List Word} (h : (parseText cfg cs p).accepts = true) :
    ∃ before c rest, WsRun cfg before ∧ cs = before ++ c :: rest ∧ (parseText cfg (c :: rest) p).accepts = true ∧
      ((∃ x, HexDigit c x) ∨ o = false ∧ c = 0x7B#32) := by
  have hpst : p.pst = .initial := hp.pst
  obtain ⟨before, rest, rfl, hbefore, ⟨-, hacc⟩ | ⟨c, rest, rfl, hc, hacc⟩⟩ :=
    exists_run_of_accepts (P := fun c => isWs cfg c = true) (fun c hc => parserStep_ws (.inl hpst) hc) h
  · exact absurd (hpst.symm.trans (finished_of_accepts hacc)) (by decide)
  · refine ⟨before, c, rest, hbefore, rfl, hacc, or_iff_not_imp_left.mpr fun hhex => by_contra fun hfirst => ?_⟩
    refine absurd hacc (not_accepts_of_fail ?_)
    rw [parserStep_initial hpst]
    by_cases hbrace : c = 0x7B#32
    · have hpbo : p.pbo = true := by simpa [hp.pbo, hbrace] using hfirst
      rw [hbrace, classify_open, stepInitial, if_pos hpbo]
    · exact stepInitial_eq_fail (classify_ne_hex cfg (not_exists.mp hhex)) (mt (classify_eq_openBrace_iff cfg c).mp hbrace)
        (mt (classify_eq_ws_iff cfg c).mp hc) p

/-- An accepted text is in one of the dialects. -/
theorem exists_spells_of_accepts {cs : List Word} (h : (parseText cfg cs State.reset.parser).accepts = true) :
    ∃ bytes, Spells cfg bytes cs := by
  have hp := reset_parser_holds
  obtain ⟨before, c, rest, hbefore, rfl, hacc, ⟨x, hx⟩ | ⟨-, rfl⟩⟩ := hp.exists_start_of_accepts h
  case inl =>
    obtain ⟨bytes, body, after, hlen, hbody, hafter, hcs⟩ := hp.exists_digitPairs_of_accepts (n := 15) rfl hx hacc
    exact ⟨bytes, hlen, before, body, after, hbefore, hbody, hafter, .inl (by rw [hcs, List.append_assoc])⟩
  case inr =>
    have hopen := hp.parserStep_openBrace
    rw [parseText_cons, classify_open] at hacc
    obtain ⟨inner, c, rest, hinner, rfl, hacc', ⟨x, hx⟩ | ⟨hclosed, -⟩⟩ := hopen.exists_start_of_accepts hacc
    · obtain ⟨bytes, body, _, hlen, hbody, ⟨inner', after, hinner', hafter, rfl⟩, hcs⟩ :=
        hopen.exists_digitPairs_of_accepts (n := 15) rfl hx hacc'
      exact ⟨bytes, hlen, before, body, after, hbefore, hbody, hafter, .inr ⟨inner, inner', hinner, hinner', by simp [hcs]⟩⟩
    · cases hclosed

end

/-- Settles O45: U.PARSE ends in P.END on the parser after the text, which accepts exactly the dialects (`accepts_of_spells`,
`exists_spells_of_accepts`) with the spelled bytes in its buffer. -/
theorem parserAcceptsExactlyTheDialects : Obligations.ParserAcceptsExactlyTheDialects := by
  intro s rd cs
  obtain ⟨q, hparser, hu, hsha, hrun⟩ := runAll_pseudoParse rd cs s
  by_cases hacc : q.parser.accepts = true
  · refine ⟨_, hrun _ (exec_pEnd_of_accepts hacc rd), hsha, fun bytes h => ⟨rfl, fun r hr => ?others, fun i hi => ?value⟩,
      fun h => absurd (exists_spells_of_accepts (hparser ▸ hacc)) h⟩
    case others =>
      have hread := q.readU_writeU rd r (identOfBytes q.parser.pbuf)
      rw [if_neg hr] at hread
      exact hread.trans (congrArg (·[r]) hu)
    case value =>
      have hread := q.readU_writeU rd rd (identOfBytes q.parser.pbuf)
      rw [if_pos rfl] at hread
      refine (congrArg (byteAt · i) hread).trans ?_
      rw [byteAt_identOfBytes _ hi]
      simp [hparser, (accepts_of_spells h).2]
  · exact ⟨_, hrun _ (exec_pEnd_of_not_accepts hacc rd), hsha, fun bytes h => absurd (hparser ▸ (accepts_of_spells h).1) hacc,
      fun _ => ⟨rfl, hu⟩⟩

end Sys2Proof.Machine
end

section
/-! SUPPORT. The canonical text of an identifier, character by character, and the run of U.FMTC that answers it (44_uuid_format_order.md
R218; 30_encoding.md R79). -/

open Sys2Proof.Claims

namespace Sys2Proof.Machine

/-! ### The bytes of an identifier (00_scope.md R9) -/

theorem eq_of_bytes_eq {a b : Ident} (h : ∀ i < 16, byteAt a i = byteAt b i) : a = b :=
  ident_ext_bytes a b fun i hi => by rw [byteOf_eq_byteAt, byteOf_eq_byteAt, h i hi]

theorem identBytes_getD (u : Ident) {i : Nat} (hi : i < 16) : (identBytes u).getD i 0 = byteAt u i := by
  rw [identBytes_eq, List.getD_eq_getElem?_getD]
  simp [hi]

/-! ### The characters -/

/-- The 36 characters of the canonical text. -/
def canonicalText (u : Ident) (c : HexCase) : List Byte := (List.range 36).map (canonicalChar u c)

/-- Nibble `n` of an identifier, the high one of a byte first. -/
theorem nibble_byteOf (u : Ident) {n : Nat} (hn : n < 32) : nibble (byteOf u (n / 2)) n = u.extractLsb' (124 - 4 * n) 4 := by
  rw [nibble_eq_extract, byteOf_eq_extract, extractLsb'_extractLsb' _ (by omega), byteLo]
  congr 1; omega

theorem canonicalChar_hyphen (u : Ident) (c : HexCase) {k : Nat} (hk : k ∈ hyphenPositions) : canonicalChar u c k = 0x2D#8 :=
  if_pos hk

/-- At the `n`-th position that holds no hyphen stands the digit of nibble `n`. -/
theorem canonicalChar_digit (u : Ident) (c : HexCase) {n k : Nat} (hn : n < 32) (hk : digitPositions[n]? = some k) :
    canonicalChar u c k = hexChar (u.extractLsb' (124 - 4 * n) 4) c := by
  have hplace : ∀ n < 32, ∀ k ∈ digitPositions[n]?, k ∉ hyphenPositions ∧ k - (hyphenPositions.filter (· < k)).length = n := by decide
  obtain ⟨hdigit, hcount⟩ := hplace n hn k hk
  rw [canonicalChar, if_neg hdigit, hcount, ← nibble_byteOf u hn]

theorem hexChar_eq_digit (n : BitVec 4) (c : HexCase) : hexChar n c = (digitsOf c).getD n.toNat 0 := by
  cases c with
  | lower => exact hexChar_lower n
  | upper => revert n; decide

/-! ### The command (R218) -/

/-- U.FMTC in its range. -/
theorem exec_uFmtc {idx : Byte} (h : idx.toNat ≤ 35) (rs : UReg) (s : State) : exec (.uFmtc rs idx) s =
    .next (s.answer .ok ((canonicalChar (s.readU rs) s.cfg.fmtCase idx.toNat).setWidth 128)) := by
  simp only [exec, execUFmtc, withIndex_ok 35 idx _ s h, respond_eq]

/-- U.FMTC after U.FMTC answers character after character. -/
theorem runAll_uFmtc (rs : UReg) (ks : List Nat) (h : ∀ k ∈ ks, k ≤ 35) (s : State) :
    ∃ t, runAll (ks.map fun k => command (.uFmtc rs (BitVec.ofNat 8 k))) s = .next t ∧
      t.out = (ks.map fun k => ⟨.ok, (canonicalChar (s.readU rs) s.cfg.fmtCase k).setWidth 128⟩).reverse ++ s.out ∧ t.u = s.u := by
  induction ks generalizing s with
  | nil => exact ⟨s, runAll_nil s, rfl, rfl⟩
  | cons k ks ih =>
    obtain ⟨hk, hks⟩ := List.forall_mem_cons.mp h
    have hidx : (BitVec.ofNat 8 k).toNat = k := Nat.mod_eq_of_lt (by omega)
    have hle : (BitVec.ofNat 8 k).toNat ≤ 35 := hidx.trans_le hk
    have hwf : (Instr.uFmtc rs (BitVec.ofNat 8 k)).wf = true := decide_eq_true hle
    obtain ⟨t, hrun, hout, hu⟩ :=
      ih hks ((s.present 0).answer .ok ((canonicalChar (s.readU rs) s.cfg.fmtCase (BitVec.ofNat 8 k).toNat).setWidth 128))
    refine ⟨t, (runAll_cons _ _ s _ ((runAction_command hwf 0 s).trans (exec_uFmtc hle rs _))).trans hrun, ?_, hu⟩
    simp [hout, hidx]

/-- U.FMT answers the canonical text and writes no register. -/
theorem runAll_pseudoFmt (rs : UReg) (s : State) : ∃ t, runAll (pseudoFmt rs) s = .next t ∧
    t.out = ((canonicalText (s.readU rs) s.cfg.fmtCase).map fun c => ⟨.ok, c.setWidth 128⟩).reverse ++ s.out ∧ t.u = s.u := by
  rw [canonicalText, List.map_map]
  exact runAll_uFmtc rs (List.range 36) (by decide) s

end Sys2Proof.Machine
end

section
/-! PROOF. O46: the canonical text is a text of the bare dialect, which the parser accepts (44_uuid_format_order.md R218, R219;
43_uuid_parse.md R198). -/

open Sys2Proof.Claims

namespace Sys2Proof.Machine

/-- A byte is its two nibbles. -/
theorem ofNat_nibbles (b : Byte) : BitVec.ofNat 8 (16 * (nibble b 0).toNat + (nibble b 1).toNat) = b := by
  have hb := b.isLt
  have hhigh : (nibble b 0).toNat = b.toNat / 16 := by
    show ((b >>> 4).setWidth 4).toNat = _
    rw [BitVec.toNat_setWidth, BitVec.toNat_ushiftRight, Nat.shiftRight_eq_div_pow]
    omega
  have hlow : (nibble b 1).toNat = b.toNat % 16 := BitVec.toNat_setWidth 4 b
  rw [hhigh, hlow, Nat.div_add_mod, BitVec.ofNat_toNat, BitVec.setWidth_eq]

/-- Separators may stand between two runs of pairs. -/
theorem DigitPairs.append {cfg : Config} {as bs : List Byte} {xs sep ys : List Word} (ha : DigitPairs cfg as xs)
    (hsep : SeparatorRun cfg sep) (hb : DigitPairs cfg bs ys) : DigitPairs cfg (as ++ bs) (xs ++ (sep ++ ys)) := by
  induction ha with
  | last hi lo x y hx hy => exact .more hi lo x y sep ys bs hx hy hsep hb
  | more hi lo x y sep' rest bytes hx hy hsep' hrest ih =>
    have h := DigitPairs.more hi lo x y sep' _ _ hx hy hsep' ih
    simpa using h

section
variable (cfg : Config) (c : HexCase)

/-- The two digits of a byte, as code points. -/
def bytePair (b : Byte) : List Word := [(hexChar (nibble b 0) c).setWidth 32, (hexChar (nibble b 1) c).setWidth 32]

/-- An emitted digit is a hex digit of its value (00_scope.md R11). -/
theorem hexDigit_hexChar (n : BitVec 4) : HexDigit ((hexChar n c).setWidth 32) n.toNat :=
  (hexVal_eq_some _ n).mp (hexVal_hexChar n c)

theorem digitPairs_bytePair (b : Byte) : DigitPairs cfg [b] (bytePair c b) := by
  have h := DigitPairs.last (cfg := cfg) _ _ _ _ (hexDigit_hexChar c (nibble b 0)) (hexDigit_hexChar c (nibble b 1))
  rwa [ofNat_nibbles] at h

/-- A group: bytes with nothing between their pairs. -/
theorem digitPairs_group {bs : List Byte} (hbs : bs ≠ []) : DigitPairs cfg bs (bs.flatMap (bytePair c)) := by
  induction bs with
  | nil => exact absurd rfl hbs
  | cons b bs ih =>
    cases bs with
    | nil => exact digitPairs_bytePair cfg c b
    | cons b' bs =>
      have hnone : SeparatorRun cfg [] := by simp [SeparatorRun]
      exact (digitPairs_bytePair cfg c b).append (sep := []) hnone (ih (List.cons_ne_nil b' bs))

/-- Groups with a hyphen between any two. -/
theorem digitPairs_groups {g : List Byte} {gs : List (List Byte)} (h : ∀ bs ∈ g :: gs, bs ≠ []) :
    DigitPairs cfg (g :: gs).flatten ([0x2D#32].intercalate ((g :: gs).map (List.flatMap (bytePair c)))) := by
  have hhyphen : SeparatorRun cfg [0x2D#32] := by simp [SeparatorRun]
  induction gs generalizing g with
  | nil => simpa using digitPairs_group cfg c (h g List.mem_cons_self)
  | cons g' gs ih =>
    obtain ⟨hg, hgs⟩ := List.forall_mem_cons.mp h
    have := (digitPairs_group cfg c hg).append hhyphen (ih hgs)
    simpa using this

/-- The bytes of the five groups of the canonical text, 8, 4, 4, 4 and 12 digits (R218). -/
def byteGroups (u : Ident) : List (List Byte) :=
  [[0, 1, 2, 3], [4, 5], [6, 7], [8, 9], [10, 11, 12, 13, 14, 15]].map (List.map (byteOf u))

theorem flatten_byteGroups (u : Ident) : (byteGroups u).flatten = identBytes u := rfl

/-- The canonical text is its groups with a hyphen between any two. -/
theorem canonicalText_eq_groups (u : Ident) : (canonicalText u c).map (·.setWidth 32) =
    [0x2D#32].intercalate ((byteGroups u).map (List.flatMap (bytePair c))) := rfl

/-- The canonical text spells its identifier in the bare dialect, whatever the whitespace is. -/
theorem spells_canonicalText (u : Ident) : Spells cfg (identBytes u) ((canonicalText u c).map (·.setWidth 32)) := by
  have hnone : WsRun cfg [] := by simp [WsRun]
  have hbody : DigitPairs cfg (identBytes u) ((canonicalText u c).map (·.setWidth 32)) := by
    rw [canonicalText_eq_groups, ← flatten_byteGroups]
    exact digitPairs_groups cfg c (by simp)
  exact ⟨rfl, [], _, [], hnone, hbody, hnone, .inl (by simp)⟩

end

/-- Settles O46: what U.FMT answers is `canonicalText`, a text of the bare dialect (`spells_canonicalText`), so that O45 gives the parse. -/
theorem parseOfFormatIsTheIdentity : Obligations.ParseOfFormatIsTheIdentity := by
  intro s q rs rd
  obtain ⟨t, hfmt, hout, hu⟩ := runAll_pseudoFmt rs s
  obtain ⟨t', hparse, -, haccepts, -⟩ :=
    parserAcceptsExactlyTheDialects q rd ((canonicalText (s.readU rs) s.cfg.fmtCase).map (·.setWidth 32))
  obtain ⟨hok, -, hbytes⟩ := haccepts _ (spells_canonicalText q.cfg s.cfg.fmtCase (s.readU rs))
  exact ⟨_, t, t', rfl, hfmt, hout, hu, hparse, hok, eq_of_bytes_eq fun i hi => (hbytes i hi).trans (identBytes_getD _ hi)⟩

end Sys2Proof.Machine
end

section
/-! PROOF. O50: U.FMTC (44_uuid_format_order.md R218). -/

open Sys2Proof.Claims

namespace Sys2Proof.Machine

/-- The last position of the canonical text is 35. -/
theorem le_of_digitPositions {n k : Nat} (hk : digitPositions[n]? = some k) : k ≤ 35 := by
  have hall : ∀ k ∈ digitPositions, k ≤ 35 := by decide
  exact hall k (List.mem_of_getElem? hk)

/-- Settles O50: out of range by R75, else by the character at the index, hyphen or digit. -/
theorem formatAnswersTheCanonicalText : Obligations.FormatAnswersTheCanonicalText := by
  refine fun s rs idx => ⟨fun h => exec_of_last_lt_index rfl h s, fun hidx => ?hyphen, fun n hn hidx => ?digit⟩
  case hyphen =>
    have hle : ∀ k ∈ hyphenPositions, k ≤ 35 := by decide
    have hexec := exec_uFmtc (hle _ hidx) rs s
    rwa [canonicalChar_hyphen _ _ hidx] at hexec
  case digit =>
    have hexec := exec_uFmtc (le_of_digitPositions hidx) rs s
    rwa [canonicalChar_digit _ _ hn hidx, hexChar_eq_digit] at hexec

end Sys2Proof.Machine
end

section
/-! SUPPORT. What U.CMP answers in each of its three cases, and the order of two identifiers byte by byte (44_uuid_format_order.md R216). -/

open Sys2Proof.Claims

namespace Sys2Proof.Machine

/-! ### The three-way result -/

section
variable {a b : Ident}

theorem compareIdent_of_lt (h : a.toNat < b.toNat) : compareIdent a b = -1 := if_pos h

theorem compareIdent_self (a : Ident) : compareIdent a a = 0 := by simp [compareIdent]

theorem compareIdent_of_gt (h : b.toNat < a.toNat) : compareIdent a b = 1 := by
  have hne : a ≠ b := fun hab => absurd h (by simp [hab])
  rw [compareIdent, if_neg h.not_gt, if_neg hne]

/-- The three cases, which exclude each other. -/
theorem compareIdent_cases (a b : Ident) : (a.toNat < b.toNat ∧ compareIdent a b = -1) ∨ (a = b ∧ compareIdent a b = 0) ∨
    (b.toNat < a.toNat ∧ compareIdent a b = 1) := by
  rcases lt_trichotomy a.toNat b.toNat with h | h | h
  · exact .inl ⟨h, compareIdent_of_lt h⟩
  · obtain rfl := BitVec.eq_of_toNat_eq h
    exact .inr (.inl ⟨rfl, compareIdent_self a⟩)
  · exact .inr (.inr ⟨h, compareIdent_of_gt h⟩)

theorem compareIdent_swap (a b : Ident) : compareIdent a b = - compareIdent b a := by
  obtain ⟨hlt, h⟩ | ⟨rfl, h⟩ | ⟨hgt, h⟩ := compareIdent_cases a b
  · rw [h, compareIdent_of_gt hlt]
  · rw [h]; rfl
  · rw [h, compareIdent_of_lt hgt]; rfl

theorem compareIdent_nonpos_iff (a b : Ident) : compareIdent a b ≤ 0 ↔ a.toNat ≤ b.toNat := by
  obtain ⟨hlt, h⟩ | ⟨rfl, h⟩ | ⟨hgt, h⟩ := compareIdent_cases a b <;> rw [h]
  · simpa using hlt.le
  · simp
  · simpa using hgt

/-! ### Byte by byte -/

/-- The first `i + 1` bytes as a number are the first `i` and byte `i`. -/
theorem leadingBytes_succ (a : Ident) {i : Nat} (hi : i < 16) :
    a.toNat / 2 ^ (120 - 8 * i) = 256 * (a.toNat / 2 ^ (128 - 8 * i)) + (byteAt a i).toNat := by
  have hpow : 2 ^ (128 - 8 * i) = 2 ^ (120 - 8 * i) * 256 := by
    rw [show 128 - 8 * i = 120 - 8 * i + 8 by omega, Nat.pow_add]
  rw [byteAt, BitVec.extractLsb'_toNat, Nat.shiftRight_eq_div_pow, hpow, ← Nat.div_div_eq_div_mul, Nat.div_add_mod]

/-- Identifiers whose first `i` bytes match agree as numbers down to there. -/
theorem leadingBytes_eq {i : Nat} (hi : i ≤ 16) (h : ∀ j < i, byteAt a j = byteAt b j) :
    a.toNat / 2 ^ (128 - 8 * i) = b.toNat / 2 ^ (128 - 8 * i) := by
  induction i with
  | zero => rw [Nat.div_eq_of_lt a.isLt, Nat.div_eq_of_lt b.isLt]
  | succ i ih =>
    rw [show 128 - 8 * (i + 1) = 120 - 8 * i by omega, leadingBytes_succ a hi, leadingBytes_succ b hi, h i (Nat.lt_succ_self i),
      ih (by omega) fun j hj => h j (by omega)]

/-- The first byte that differs decides. -/
theorem toNat_lt_of_first_byte_lt {i : Nat} (hi : i < 16) (h : ∀ j < i, byteAt a j = byteAt b j)
    (hlt : (byteAt a i).toNat < (byteAt b i).toNat) : a.toNat < b.toNat := by
  refine Nat.lt_of_div_lt_div (c := 2 ^ (120 - 8 * i)) ?_
  rw [leadingBytes_succ a hi, leadingBytes_succ b hi, leadingBytes_eq (Nat.le_of_lt hi) h]
  omega

end

/-! ### The answers -/

/-- What U.CMP answers. -/
def compareAnswer (a b : Ident) : Ident := BitVec.ofInt 128 (compareIdent a b)

theorem exec_uCmp (rs rt : UReg) (s : State) : Answers (.uCmp rs rt) s (compareAnswer s.u[rs] s.u[rt]) := rfl

theorem exec_uEq (rs rt : UReg) (s : State) : Answers (.uEq rs rt) s (if s.u[rs] = s.u[rt] then 1 else 0) := rfl

/-- The answer read as a signed number is the three-way result. -/
theorem compareAnswer_toInt (a b : Ident) : (compareAnswer a b).toInt = compareIdent a b := by
  rw [compareAnswer]
  obtain ⟨-, h⟩ | ⟨-, h⟩ | ⟨-, h⟩ := compareIdent_cases a b <;> rw [h] <;> decide

theorem compareAnswer_eq_zero_iff (a b : Ident) : compareAnswer a b = 0 ↔ a = b := by
  rw [compareAnswer]
  obtain ⟨hlt, h⟩ | ⟨rfl, h⟩ | ⟨hgt, h⟩ := compareIdent_cases a b <;> rw [h]
  · exact iff_of_false (by decide) fun hab => hlt.ne (congrArg BitVec.toNat hab)
  · exact iff_of_true rfl rfl
  · exact iff_of_false (by decide) fun hab => hgt.ne' (congrArg BitVec.toNat hab)

end Sys2Proof.Machine
end

section
/-! PROOF. O47, O48, O49: U.EQ and U.CMP (44_uuid_format_order.md R215 to R217). -/

open Sys2Proof.Claims

namespace Sys2Proof.Machine

/-- Settles O47: registers with the same 16 bytes are equal. -/
theorem equalityComparesAllBytes : Obligations.EqualityComparesAllBytes := fun s rs rt =>
  ⟨_, exec_uEq rs rt s, fun h => if_pos (eq_of_bytes_eq h), fun i _ hne => if_neg fun heq => hne (congrArg (byteAt · i) heq)⟩

/-- Settles O48: the first byte that differs decides the order of the two numbers. -/
theorem comparisonIsLexicographic : Obligations.ComparisonIsLexicographic := by
  refine fun s rs rt => ⟨_, exec_uCmp rs rt s, fun h => ?equal, fun i hi h => ⟨fun hlt => ?less, fun hgt => ?greater⟩⟩
  case equal =>
    rw [compareAnswer, eq_of_bytes_eq h, compareIdent_self]
    rfl
  case less =>
    rw [compareAnswer, compareIdent_of_lt (toNat_lt_of_first_byte_lt hi h hlt)]
    decide
  case greater =>
    rw [compareAnswer, compareIdent_of_gt (toNat_lt_of_first_byte_lt hi (fun j hj => (h j hj).symm) hgt)]
    rfl

/-- Settles O49: U.CMP orders the registers as the numbers they are. -/
theorem comparisonIsATotalOrder : Obligations.ComparisonIsATotalOrder := by
  refine fun s ra rb rc => ⟨_, _, _, _, _, _, exec_uCmp ra ra s, exec_uCmp ra rb s, exec_uCmp rb ra s, exec_uCmp rb rc s,
    exec_uCmp ra rc s, exec_uEq ra rb s, ?reflexive, ?antisymmetric, ?transitive, ?equality⟩
  case reflexive => exact (compareAnswer_eq_zero_iff _ _).mpr rfl
  case antisymmetric =>
    rw [compareAnswer_toInt, compareAnswer_toInt]
    exact compareIdent_swap _ _
  case transitive =>
    simp only [compareAnswer_toInt, compareIdent_nonpos_iff]
    exact Nat.le_trans
  case equality =>
    rw [compareAnswer_eq_zero_iff]
    by_cases h : s.u[ra] = s.u[rb] <;> simp [h]

end Sys2Proof.Machine
end

section
/-! PROOF. O8: CORE.RESET, and what SHA.STAT, P.STAT and U.RD128 answer after it (10_state.md R39, 60_exceptions.md R240). -/

open Sys2Proof.Claims

namespace Sys2Proof.Machine

/-- The two status words of R37 are made of reset values that are all 0. -/
theorem statusWords_of_atReset {t : State} (h : AtReset t) : shaStatusWord t.sha = 0 ∧ parserStatusWord t.parser = 0 := by
  obtain ⟨-, hnblk, hnbuf, hfin, -, hpst, hpdig, hpbo, hpbc, -⟩ := h
  constructor
  · rw [shaStatusWord, hnblk, hnbuf, hfin]
    decide
  · rw [parserStatusWord, hpst, hpdig, hpbo, hpbc]
    decide

theorem answers_zero_of_atReset {t : State} (h : AtReset t) :
    Answers .shaStat t 0 ∧ Answers .pStat t 0 ∧ ∀ r, Answers (.uRd128 r) t 0 := by
  obtain ⟨hsha, hparser⟩ := statusWords_of_atReset h
  obtain ⟨-, -, -, -, hu, -⟩ := h
  exact ⟨congrArg (respond · t) hsha, congrArg (respond · t) hparser, fun r => congrArg (respond · t) (hu r)⟩

/-- Settles O8: CORE.RESET leaves the units of `State.resetUnits` and its response, and the three reads answer reset values. -/
theorem coreResetGivesTheResetValues : Obligations.CoreResetGivesTheResetValues := by
  intro s
  have hreset : AtReset (s.resetUnits.answer .ok 0) := atReset_of ⟨_, rfl⟩ s.readU_resetUnits rfl
  exact ⟨_, rfl, hreset, rfl, rfl, rfl, rfl, answers_zero_of_atReset hreset⟩

end Sys2Proof.Machine
end

section
/-! PROOF. O10: the one response of a command and its status (60_exceptions.md R231 to R235). -/

open Sys2Proof.Claims

namespace Sys2Proof.Machine

/-- The opcodes of the digest reads SHA.RDW, SHA.RDB and SHA.RDHEX: the commands that look at `FIN` (R233). -/
def digestReadOpcodes : List Byte := [0x13#8, 0x14#8, 0x15#8]

/-- R233: a well-formed digest read of an unfinished unit raises NotFinished. -/
theorem exec_digestRead_of_not_fin {i : Instr} (hwf : i.wf = true) (hop : i.opcode ∈ digestReadOpcodes) {s : State}
    (hfin : s.sha.fin = false) : exec i s = .next (s.answer .notFinished 0) := by
  cases i with
  | shaRdw idx | shaRdb idx | shaRdhex idx =>
    obtain ⟨-, hunfinished, -⟩ := digestRead_answers _ idx _ s
    exact hunfinished (of_decide_eq_true hwf) hfin
  | _ => simp [Instr.opcode, digestReadOpcodes] at hop

/-- Every other well-formed command, and a digest read of a finished unit, responds OK. -/
theorem exec_respondsOk {i : Instr} (hwf : i.wf = true) {s : State}
    (h : ¬ (i.opcode ∈ digestReadOpcodes ∧ s.sha.fin = false)) : ∃ t v, exec i s = .next t ∧ t.out = ⟨.ok, v⟩ :: s.out := by
  cases i with
  | shaRdw idx | shaRdb idx | shaRdhex idx =>
    have hfin : s.sha.fin = true := by simpa [Instr.opcode, digestReadOpcodes] using h
    obtain ⟨-, -, hfinished⟩ := digestRead_answers _ idx _ s
    exact ⟨_, _, hfinished (of_decide_eq_true hwf) hfin, rfl⟩
  | uWrb rd idx => exact ⟨_, _, exec_uWrb (of_decide_eq_true hwf) rd s, rfl⟩
  | uRdb rs idx => exact ⟨_, _, exec_uRdb (of_decide_eq_true hwf) rs s, rfl⟩
  | uLdns rd idx => exact ⟨_, _, exec_uLdns (of_decide_eq_true hwf) rd s, rfl⟩
  | uFmtc rs idx => exact ⟨_, _, exec_uFmtc (of_decide_eq_true hwf) rs s, rfl⟩
  | uWrf r idx | uRdf r idx =>
    obtain ⟨f, hf⟩ := Option.isSome_iff_exists.mp ((fieldOf_isSome idx).trans hwf)
    simp only [exec, execUWrf, execURdf, hf]
    exact ⟨_, _, rfl, rfl⟩
  | pEnd rd =>
    by_cases haccepts : s.parser.accepts = true
    · exact ⟨_, _, exec_pEnd_of_accepts haccepts rd, rfl⟩
    · exact ⟨_, _, exec_pEnd_of_not_accepts haccepts rd, rfl⟩
  | _ => exact ⟨_, _, rfl, rfl⟩

/-- Settles O10: a word that spells no command raises IllegalCmd before `FIN` is looked at; one that does is executed as a well-formed
command of its opcode, which raises NotFinished or responds OK. -/
theorem everyCommandRespondsOnce : Obligations.EveryCommandRespondsOnce := by
  refine ⟨rfl, rfl, rfl, fun w d rest s => ?_⟩
  obtain ⟨-, hlegal, hillegal⟩ := wordSelectsOneRowOrRaisesIllegalCmd
  obtain ⟨hexecutes, -⟩ := stepExecutesTheDecodedCommand
  by_cases hw : SpellsCommand w
  case neg => exact ⟨_, _, hillegal w d rest s hw, rfl, by simp [hw], by simp [hw], fun _ => ⟨rfl, rfl, rfl, rfl⟩⟩
  obtain ⟨-, i, hdecode, hwf, hop⟩ := hlegal w hw
  have hstep := hexecutes w i d rest s hdecode
  by_cases hread : i.opcode ∈ digestReadOpcodes ∧ s.sha.fin = false
  case pos =>
    obtain ⟨hmem, hfin⟩ := hread
    refine ⟨_, _, hstep.trans (exec_digestRead_of_not_fin hwf hmem hfin), rfl, by simp [hw], ?_, fun _ => ⟨rfl, rfl, rfl, rfl⟩⟩
    exact iff_of_true rfl ⟨hw, hop ▸ hmem, hfin⟩
  case neg =>
    obtain ⟨t, v, hexec, hout⟩ := exec_respondsOk hwf (s := { s with inbox := rest, wdata := d }) hread
    rw [hop] at hread
    exact ⟨t, ⟨.ok, v⟩, hstep.trans hexec, hout, by simp [hw], iff_of_false (by simp) fun h => hread h.2, fun h => absurd rfl h⟩

end Sys2Proof.Machine
end

section
/-! PROOF. O9: every step completes and takes one action (70_reset_and_hazards.md R264). -/

namespace Sys2Proof.Machine

/-- Whatever a step does, the pending actions it leaves are those behind the first. -/
theorem StepsTo.inbox_eq_tail {s t : State} (h : StepsTo s t) : t.inbox = s.inbox.tail := by
  cases h with
  | idle h => simp [h]
  | reset _ h | illegal _ _ _ _ h | command _ _ _ _ _ _ h =>
    rw [h]
    rfl

/-- Settles O9: a step is idle, the reset input, IllegalCmd or a command, and each of these completes. -/
theorem everyStepCompletes : Obligations.EveryStepCompletes := fun s =>
  let ⟨t, hstep, hst⟩ := step_stepsTo s
  ⟨t, hstep, hst.inbox_eq_tail⟩

end Sys2Proof.Machine
end

section
/-! PROOF. O5: an instruction term with its index out of range raises IllegalCmd (30_encoding.md R75, 60_exceptions.md R235). -/

namespace Sys2Proof.Machine

/-- R75: the one way for a command to be ill-formed. -/
theorem wf_eq_false_iff {i : Instr} : i.wf = false ↔ ∃ idx last, i.index = some (idx, last) ∧ last < idx.toNat := by
  unfold Instr.wf
  cases hi : i.index with
  | none => simp
  | some p =>
    obtain ⟨idx, last⟩ := p
    simp

/-- Settles O5: the commands that use `IDX` check it first, and no other command is ill-formed. -/
theorem indexOutOfRangeRaisesIllegalCmd : Obligations.IndexOutOfRangeRaisesIllegalCmd := fun _ s hwf =>
  let ⟨_, _, hindex, hlast⟩ := wf_eq_false_iff.mp hwf
  exec_of_last_lt_index hindex hlast s

end Sys2Proof.Machine
end
